-- ==== Sys2Proof/Word.lean ====
section
/-! DEFINITION. The word types of `chip8_decoder` (spec/00_scope.md R5, R8): every value is unsigned. -/

namespace Sys2Proof

/-- 8 bits: a general register, a timer, a memory cell (`XLEN`, R5). -/
abbrev Byte := BitVec 8

/-- 16 bits: an opcode, `I`, `PC`, a stack entry (`ILEN`, `IWIDTH`, `PCWIDTH`, `STACK_ENTRY`, R5). -/
abbrev Word := BitVec 16

/-- A general register number, or the four-bit count of `DRW`, `LD [I],Vx` and `LD Vx,[I]`: it indexes
or counts and is never computed with as a word (R21, R71). -/
abbrev RegIx := Fin 16

/-- The display column of a pixel, `0 ≤ x ≤ 63` (R31). -/
abbrev Column := Fin 64

/-- The display row of a pixel, `0 ≤ y ≤ 31` (R31). -/
abbrev Row := Fin 32

end Sys2Proof
end

