-- ==== Sys2Proof/Config.lean ====
section
/-! DEFINITION. What one implementation fixes (spec/00_scope.md R5) and what the spec leaves free: the open font
parameters and the stream of environment inputs. A constant without a body is a free value: nothing can be proved of
its value, so a claim holds whatever it is. -/

namespace Sys2Proof

/-- `MEM_SIZE`: bytes of memory (R5, R30). -/
def Config.memSize : Nat := 4096

/-- `PROG_BASE`: where a program image is loaded and where `PC` starts (R5). -/
def Config.progBase : Nat := 0x200

/-- `PROG_MAX`: the longest program image in bytes (R5, R263). -/
def Config.progMax : Nat := 3584

/-- `PC_LO`: the lowest address an opcode may be fetched from (R5; the spec's decision D2, log entry 3). -/
def Config.pcLo : Nat := 0x200

/-- `PC_HI`: the highest address an opcode may be fetched from (R5; decision D2, log entry 3). -/
def Config.pcHi : Nat := 0xFFE

/-- `FONT_STRIDE`: bytes of one glyph (R5; decision D15, log entry 2). -/
def Config.fontStride : Nat := 5

/-- Bytes of the whole font, sixteen glyphs (R177). -/
def Config.fontSize : Nat := 80

/-- `SUB_EQ_FLAG`: what `SUB` and `SUBN` write to `VF` for equal operands (R5, R147, R149; decision D11,
log entry 8). -/
def Config.subEqFlag : Byte := 0

/-- `FONT_BASE`: the address of the glyph for digit 0. The spec leaves it `OPEN` under the constraint
`FONT_BASE + 80 ≤ 0x200` (R5, D15), which the type carries. FREE VALUE, log entry 1. -/
opaque Config.fontBase : Fin 433

/-- `FONT_DATA`: the glyph bitmaps. The spec leaves them `OPEN` (R5, D15). FREE VALUE, log entry 1. -/
opaque Config.fontData : Vector Byte 80

/-- The recommended `FONT_DATA`, the 80 bytes of the table of spec/43_index_memory.md R177. The machine does not
rest on it: it is the value a host that follows the recommendation gives `Config.fontData`. -/
def Config.conventionalFont : Vector Byte 80 := #v[
  0xF0, 0x90, 0x90, 0x90, 0xF0,  0x20, 0x60, 0x20, 0x20, 0x70,
  0xF0, 0x10, 0xF0, 0x80, 0xF0,  0xF0, 0x10, 0xF0, 0x10, 0xF0,
  0x90, 0x90, 0xF0, 0x10, 0x10,  0xF0, 0x80, 0xF0, 0x10, 0xF0,
  0xF0, 0x80, 0xF0, 0x90, 0xF0,  0xF0, 0x10, 0x20, 0x40, 0x40,
  0xF0, 0x90, 0xF0, 0x90, 0xF0,  0xF0, 0x90, 0xF0, 0x10, 0xF0,
  0xF0, 0x90, 0xF0, 0x90, 0x90,  0xE0, 0x90, 0xE0, 0x90, 0xE0,
  0xF0, 0x80, 0x80, 0x80, 0xF0,  0xE0, 0x90, 0x90, 0x90, 0xE0,
  0xF0, 0x80, 0xF0, 0x80, 0xF0,  0xF0, 0x80, 0xF0, 0x80, 0x80]

/-- The three environment inputs the host supplies to one cycle step (spec/10_state.md R36). -/
structure EnvInput where
  /-- `KeyHeld`: bit `k` is 1 when keypad key `k` is held during the cycle. -/
  keyHeld : BitVec 16
  /-- `KeyEvent()`: `none`, or `some k` with `k` a four-bit key value. -/
  keyEvent : Option (BitVec 4)
  /-- `RandByte()`: the random byte of the cycle. -/
  randByte : Byte
  deriving DecidableEq, Repr, Inhabited

/-- The inputs of the cycle with this number, where the state lists none for it. Any of the combinations may be
presented at any cycle (R36), so the stream is a FREE VALUE, log entry 4. -/
opaque Config.envInput : Nat → EnvInput

end Sys2Proof
end

