-- ==== Sys2Proof/Syntax.lean ====
section
/-! DEFINITION. The instructions: one constructor per row of spec/opcode_table.json (spec/30_encoding.md R86). Bits
an opcode holds and its instruction ignores (the low nibble of `5xy_` and `9xy_`, the `y` of the shifts, the whole word
of `UNKNOWN`) are kept, so that no bit of a word is lost by decoding. -/

namespace Sys2Proof

/-- An instruction with its operand fields (R71, R72, R86). -/
inductive Instr where
  /-- `0000`, the sentinel (R80, R101). -/
  | halt
  /-- `00E0` `CLS` (R201). -/
  | cls
  /-- `00EE` `RET` (R102). -/
  | ret
  /-- `1nnn` `JP nnn` (R103). -/
  | jp (nnn : BitVec 12)
  /-- `2nnn` `CALL nnn` (R104). -/
  | call (nnn : BitVec 12)
  /-- `3xkk` `SE Vx,kk` (R121). -/
  | seImm (x : RegIx) (kk : Byte)
  /-- `4xkk` `SNE Vx,kk` (R122). -/
  | sneImm (x : RegIx) (kk : Byte)
  /-- `5xy_` `SE Vx,Vy`; the low nibble is ignored (R78, R123). -/
  | seReg (x y : RegIx) (ignored : BitVec 4)
  /-- `6xkk` `LD Vx,kk` (R140). -/
  | ldImm (x : RegIx) (kk : Byte)
  /-- `7xkk` `ADD Vx,kk` (R141). -/
  | addImm (x : RegIx) (kk : Byte)
  /-- `8xy0` `LD Vx,Vy` (R142). -/
  | ldReg (x y : RegIx)
  /-- `8xy1` `OR Vx,Vy` (R143). -/
  | orReg (x y : RegIx)
  /-- `8xy2` `AND Vx,Vy` (R144). -/
  | andReg (x y : RegIx)
  /-- `8xy3` `XOR Vx,Vy` (R145). -/
  | xorReg (x y : RegIx)
  /-- `8xy4` `ADD Vx,Vy` (R146). -/
  | addReg (x y : RegIx)
  /-- `8xy5` `SUB Vx,Vy` (R147). -/
  | sub (x y : RegIx)
  /-- `8xy6` `SHR Vx`; `y` is ignored (R148). -/
  | shr (x y : RegIx)
  /-- `8xy7` `SUBN Vx,Vy` (R149). -/
  | subn (x y : RegIx)
  /-- `8xyE` `SHL Vx`; `y` is ignored (R150). -/
  | shl (x y : RegIx)
  /-- `9xy_` `SNE Vx,Vy`; the low nibble is ignored (R78, R124). -/
  | sneReg (x y : RegIx) (ignored : BitVec 4)
  /-- `Annn` `LD I,nnn` (R170). -/
  | ldI (nnn : BitVec 12)
  /-- `Bnnn` `JP V0,nnn` (R105). -/
  | jpV0 (nnn : BitVec 12)
  /-- `Cxkk` `RND Vx,kk` (R194). -/
  | rnd (x : RegIx) (kk : Byte)
  /-- `Dxyn` `DRW Vx,Vy,n` (R202). -/
  | drw (x y : RegIx) (n : RegIx)
  /-- `Ex9E` `SKP Vx` (R125). -/
  | skp (x : RegIx)
  /-- `ExA1` `SKNP Vx` (R126). -/
  | sknp (x : RegIx)
  /-- `Fx07` `LD Vx,DT` (R190). -/
  | ldVxDt (x : RegIx)
  /-- `Fx0A` `LD Vx,K` (R191). -/
  | ldVxK (x : RegIx)
  /-- `Fx15` `LD DT,Vx` (R192). -/
  | ldDtVx (x : RegIx)
  /-- `Fx18` `LD ST,Vx` (R193). -/
  | ldStVx (x : RegIx)
  /-- `Fx1E` `ADD I,Vx` (R171). -/
  | addI (x : RegIx)
  /-- `Fx29` `LD F,Vx` (R172). -/
  | ldF (x : RegIx)
  /-- `Fx33` `LD B,Vx` (R173). -/
  | ldB (x : RegIx)
  /-- `Fx55` `LD [I],Vx` (R174). -/
  | storeRegs (x : RegIx)
  /-- `Fx65` `LD Vx,[I]` (R175). -/
  | loadRegs (x : RegIx)
  /-- Any word no other row matches, kept whole (R82, R106). -/
  | unknown (w : Word)
  deriving DecidableEq, Repr

end Sys2Proof
end

