-- ==== Sys2Proof/WellFormed.lean ====
section
/-! DEFINITION. Which terms of `Instr` stand for a word. Every operand field is as wide as the opcode's, so the only
thing to check is that `unknown` carries a word that belongs to no other row (spec/30_encoding.md R82). -/

namespace Sys2Proof

/-- The `Unknown` words by family, the table of spec/30_encoding.md R82. -/
def isUnknownWord (w : Word) : Bool :=
  let fam := (w.extractLsb' 12 4).toNat
  let low := (w.extractLsb' 0 8).toNat
  let nib := (w.extractLsb' 0 4).toNat
  (fam == 0x0 && !([0x0000, 0x00E0, 0x00EE].contains w.toNat))
  || (fam == 0x8 && [0x8, 0x9, 0xA, 0xB, 0xC, 0xD, 0xF].contains nib)
  || (fam == 0xE && !([0x9E, 0xA1].contains low))
  || (fam == 0xF && !([0x07, 0x0A, 0x15, 0x18, 0x1E, 0x29, 0x33, 0x55, 0x65].contains low))

/-- The term stands for a word of the opcode map. -/
def Instr.wellFormed : Instr → Bool
  | .halt | .cls | .ret => true
  | .jp _ | .call _ | .ldI _ | .jpV0 _ => true
  | .seImm _ _ | .sneImm _ _ | .ldImm _ _ | .addImm _ _ | .rnd _ _ => true
  | .seReg _ _ _ | .sneReg _ _ _ | .drw _ _ _ => true
  | .ldReg _ _ | .orReg _ _ | .andReg _ _ | .xorReg _ _ => true
  | .addReg _ _ | .sub _ _ | .shr _ _ | .subn _ _ | .shl _ _ => true
  | .skp _ | .sknp _ | .ldVxDt _ | .ldVxK _ | .ldDtVx _ | .ldStVx _ => true
  | .addI _ | .ldF _ | .ldB _ | .storeRegs _ | .loadRegs _ => true
  | .unknown w => isUnknownWord w

end Sys2Proof
end

