-- ==== Sys2Proof/Decode.lean ====
section
/-! DEFINITION. The block `chip8_decoder` (spec/30_encoding.md): the fields of an opcode (R71), the two-level dispatch
(R73 to R78), the decoder of a byte stream, the encoder, the decoder's output `kind` read from the match and mask
table (R79, R85, R86), and the assembler syntax (R84). -/

namespace Sys2Proof

/-! ### Fields (R71) -/

/-- `fam = opcode[15:12]`. -/
def fieldFam (w : Word) : BitVec 4 := w.extractLsb' 12 4

/-- `x = opcode[11:8]`. -/
def fieldX (w : Word) : RegIx := (w.extractLsb' 8 4).toFin

/-- `y = opcode[7:4]`. -/
def fieldY (w : Word) : RegIx := (w.extractLsb' 4 4).toFin

/-- `n = opcode[3:0]`. -/
def fieldN (w : Word) : BitVec 4 := w.extractLsb' 0 4

/-- `kk = opcode[7:0]`. -/
def fieldKk (w : Word) : Byte := w.extractLsb' 0 8

/-- `nnn = opcode[11:0]`. -/
def fieldNnn (w : Word) : BitVec 12 := w.extractLsb' 0 12

/-! ### The two-level dispatch -/

/-- Family `0x0`: the whole word is the key (R74). `0x0000` is given its own row (R80, R86 row 1; log entry 5). -/
def decodeFam0 (w : Word) : Instr :=
  if w = 0x0000#16 then .halt
  else if w = 0x00E0#16 then .cls
  else if w = 0x00EE#16 then .ret
  else .unknown w

/-- Family `0x8`: the low nibble is the key (R75). -/
def decodeFam8 (w : Word) : Instr :=
  match (fieldN w).toNat with
  | 0x0 => .ldReg (fieldX w) (fieldY w)
  | 0x1 => .orReg (fieldX w) (fieldY w)
  | 0x2 => .andReg (fieldX w) (fieldY w)
  | 0x3 => .xorReg (fieldX w) (fieldY w)
  | 0x4 => .addReg (fieldX w) (fieldY w)
  | 0x5 => .sub (fieldX w) (fieldY w)
  | 0x6 => .shr (fieldX w) (fieldY w)
  | 0x7 => .subn (fieldX w) (fieldY w)
  | 0xE => .shl (fieldX w) (fieldY w)
  | _ => .unknown w

/-- Family `0xE`: the low byte is the key (R76). -/
def decodeFamE (w : Word) : Instr :=
  match (fieldKk w).toNat with
  | 0x9E => .skp (fieldX w)
  | 0xA1 => .sknp (fieldX w)
  | _ => .unknown w

/-- Family `0xF`: the low byte is the key (R77). -/
def decodeFamF (w : Word) : Instr :=
  match (fieldKk w).toNat with
  | 0x07 => .ldVxDt (fieldX w)
  | 0x0A => .ldVxK (fieldX w)
  | 0x15 => .ldDtVx (fieldX w)
  | 0x18 => .ldStVx (fieldX w)
  | 0x1E => .addI (fieldX w)
  | 0x29 => .ldF (fieldX w)
  | 0x33 => .ldB (fieldX w)
  | 0x55 => .storeRegs (fieldX w)
  | 0x65 => .loadRegs (fieldX w)
  | _ => .unknown w

/-- The decoder: total on every word (R79), first level on the family (R73). -/
def decode (w : Word) : Instr :=
  match (fieldFam w).toNat with
  | 0x0 => decodeFam0 w
  | 0x1 => .jp (fieldNnn w)
  | 0x2 => .call (fieldNnn w)
  | 0x3 => .seImm (fieldX w) (fieldKk w)
  | 0x4 => .sneImm (fieldX w) (fieldKk w)
  | 0x5 => .seReg (fieldX w) (fieldY w) (fieldN w)
  | 0x6 => .ldImm (fieldX w) (fieldKk w)
  | 0x7 => .addImm (fieldX w) (fieldKk w)
  | 0x8 => decodeFam8 w
  | 0x9 => .sneReg (fieldX w) (fieldY w) (fieldN w)
  | 0xA => .ldI (fieldNnn w)
  | 0xB => .jpV0 (fieldNnn w)
  | 0xC => .rnd (fieldX w) (fieldKk w)
  | 0xD => .drw (fieldX w) (fieldY w) (fieldN w).toFin
  | 0xE => decodeFamE w
  | _ => decodeFamF w

/-! ### Words and bytes -/

/-- The opcode whose first byte in memory is `hi` and second is `lo`: big-endian (spec/20_memory.md R53). -/
def opcodeOf (hi lo : Byte) : Word := hi ++ lo

/-- Why a byte stream gives no instruction. -/
inductive DecodeReject where
  /-- Fewer than the two bytes of an opcode are left (R70). Every two bytes decode (R79). -/
  | truncated
  deriving DecidableEq, Repr

/-- Reads one instruction from the front of a byte stream and returns the bytes after it (R70). -/
def decodeBytes : List Byte → Except DecodeReject (Instr × List Byte)
  | hi :: lo :: rest => .ok (decode (opcodeOf hi lo), rest)
  | _ => .error .truncated

/-- The instruction of an opcode-table row whose bits are `w`: an opcode has 16 bits (R70), so a row has at most 16,
and a shorter row's upper bits are 0. The word is laid out big-endian and read back by the decoder. -/
def decodeTableWord (nbits w : Nat) : Option Instr :=
  if nbits ≤ 16 then
    let op : Word := BitVec.ofNat 16 (w % 2 ^ nbits)
    match decodeBytes [op.extractLsb' 8 8, op.extractLsb' 0 8] with
    | .ok (i, _) => some i
    | .error _ => none
  else none

/-! ### The encoder (R72, R86) -/

/-- Format `NNN`. -/
def encNnn (fam : BitVec 4) (nnn : BitVec 12) : Word := fam ++ nnn

/-- Format `XKK`; format `XSS` when `kk` is the sub-code. -/
def encXkk (fam : BitVec 4) (x : RegIx) (kk : Byte) : Word := fam ++ (BitVec.ofFin x : BitVec 4) ++ kk

/-- Format `XYN`; format `XYS` when `n` is the sub-code. -/
def encXyn (fam : BitVec 4) (x y : RegIx) (n : BitVec 4) : Word :=
  fam ++ (BitVec.ofFin x : BitVec 4) ++ (BitVec.ofFin y : BitVec 4) ++ n

/-- The word of an instruction, from the patterns of R86. -/
def encode : Instr → Word
  | .halt => 0x0000#16
  | .cls => 0x00E0#16
  | .ret => 0x00EE#16
  | .jp nnn => encNnn 0x1#4 nnn
  | .call nnn => encNnn 0x2#4 nnn
  | .seImm x kk => encXkk 0x3#4 x kk
  | .sneImm x kk => encXkk 0x4#4 x kk
  | .seReg x y n => encXyn 0x5#4 x y n
  | .ldImm x kk => encXkk 0x6#4 x kk
  | .addImm x kk => encXkk 0x7#4 x kk
  | .ldReg x y => encXyn 0x8#4 x y 0x0#4
  | .orReg x y => encXyn 0x8#4 x y 0x1#4
  | .andReg x y => encXyn 0x8#4 x y 0x2#4
  | .xorReg x y => encXyn 0x8#4 x y 0x3#4
  | .addReg x y => encXyn 0x8#4 x y 0x4#4
  | .sub x y => encXyn 0x8#4 x y 0x5#4
  | .shr x y => encXyn 0x8#4 x y 0x6#4
  | .subn x y => encXyn 0x8#4 x y 0x7#4
  | .shl x y => encXyn 0x8#4 x y 0xE#4
  | .sneReg x y n => encXyn 0x9#4 x y n
  | .ldI nnn => encNnn 0xA#4 nnn
  | .jpV0 nnn => encNnn 0xB#4 nnn
  | .rnd x kk => encXkk 0xC#4 x kk
  | .drw x y n => encXyn 0xD#4 x y (BitVec.ofFin n)
  | .skp x => encXkk 0xE#4 x 0x9E#8
  | .sknp x => encXkk 0xE#4 x 0xA1#8
  | .ldVxDt x => encXkk 0xF#4 x 0x07#8
  | .ldVxK x => encXkk 0xF#4 x 0x0A#8
  | .ldDtVx x => encXkk 0xF#4 x 0x15#8
  | .ldStVx x => encXkk 0xF#4 x 0x18#8
  | .addI x => encXkk 0xF#4 x 0x1E#8
  | .ldF x => encXkk 0xF#4 x 0x29#8
  | .ldB x => encXkk 0xF#4 x 0x33#8
  | .storeRegs x => encXkk 0xF#4 x 0x55#8
  | .loadRegs x => encXkk 0xF#4 x 0x65#8
  | .unknown w => w

/-- The two bytes of an instruction in memory order (R53). -/
def encodeBytes (i : Instr) : List Byte := [(encode i).extractLsb' 8 8, (encode i).extractLsb' 0 8]

/-! ### The decoder's output port -/

/-- `Kind`: the closed set of 35 values of R79, 34 instruction kinds and `Unknown`. -/
inductive Kind where
  | cls | ret | jp | call | seImm | sneImm | seReg | ldImm | addImm | ldReg | orReg | andReg | xorReg | addReg
  | sub | shr | subn | shl | sneReg | ldI | jpV0 | rnd | drw | skp | sknp | ldVxDt | ldVxK | ldDtVx | ldStVx
  | addI | ldF | ldB | storeRegs | loadRegs | unknown
  deriving DecidableEq, Repr

/-- One row of the opcode map: `w` is the row's when `w & mask = match` (R86). -/
structure OpcodeRow where
  code : Word
  mask : Word
  kind : Kind
  deriving DecidableEq, Repr

/-- Rows 2 to 35 of R86. Row 1 (`0000`) is no value of the pure function (R80) and row 36 is its default. -/
def opcodeRows : List OpcodeRow :=
  [⟨0x00E0, 0xFFFF, .cls⟩, ⟨0x00EE, 0xFFFF, .ret⟩, ⟨0x1000, 0xF000, .jp⟩, ⟨0x2000, 0xF000, .call⟩,
   ⟨0x3000, 0xF000, .seImm⟩, ⟨0x4000, 0xF000, .sneImm⟩, ⟨0x5000, 0xF000, .seReg⟩, ⟨0x6000, 0xF000, .ldImm⟩,
   ⟨0x7000, 0xF000, .addImm⟩] ++
  [⟨0x8000, 0xF00F, .ldReg⟩, ⟨0x8001, 0xF00F, .orReg⟩, ⟨0x8002, 0xF00F, .andReg⟩, ⟨0x8003, 0xF00F, .xorReg⟩,
   ⟨0x8004, 0xF00F, .addReg⟩, ⟨0x8005, 0xF00F, .sub⟩, ⟨0x8006, 0xF00F, .shr⟩, ⟨0x8007, 0xF00F, .subn⟩,
   ⟨0x800E, 0xF00F, .shl⟩] ++
  [⟨0x9000, 0xF000, .sneReg⟩, ⟨0xA000, 0xF000, .ldI⟩, ⟨0xB000, 0xF000, .jpV0⟩, ⟨0xC000, 0xF000, .rnd⟩,
   ⟨0xD000, 0xF000, .drw⟩] ++
  [⟨0xE09E, 0xF0FF, .skp⟩, ⟨0xE0A1, 0xF0FF, .sknp⟩, ⟨0xF007, 0xF0FF, .ldVxDt⟩, ⟨0xF00A, 0xF0FF, .ldVxK⟩,
   ⟨0xF015, 0xF0FF, .ldDtVx⟩, ⟨0xF018, 0xF0FF, .ldStVx⟩, ⟨0xF01E, 0xF0FF, .addI⟩, ⟨0xF029, 0xF0FF, .ldF⟩,
   ⟨0xF033, 0xF0FF, .ldB⟩, ⟨0xF055, 0xF0FF, .storeRegs⟩, ⟨0xF065, 0xF0FF, .loadRegs⟩]

/-- The word belongs to the row. -/
def OpcodeRow.takes (r : OpcodeRow) (w : Word) : Bool := w &&& r.mask == r.code

/-- The output `kind` of the block `chip8_decoder` (R79, R85), read from the match and mask table (R86). -/
def decoderKind (w : Word) : Kind :=
  match opcodeRows.find? (fun r => r.takes w) with
  | some r => r.kind
  | none => .unknown

/-- The decoder's kind of an instruction; the sentinel's is `Unknown` (R80). -/
def kindOf : Instr → Kind
  | .halt => .unknown
  | .cls => .cls
  | .ret => .ret
  | .jp _ => .jp
  | .call _ => .call
  | .seImm _ _ => .seImm
  | .sneImm _ _ => .sneImm
  | .seReg _ _ _ => .seReg
  | .ldImm _ _ => .ldImm
  | .addImm _ _ => .addImm
  | .ldReg _ _ => .ldReg
  | .orReg _ _ => .orReg
  | .andReg _ _ => .andReg
  | .xorReg _ _ => .xorReg
  | .addReg _ _ => .addReg
  | .sub _ _ => .sub
  | .shr _ _ => .shr
  | .subn _ _ => .subn
  | .shl _ _ => .shl
  | .sneReg _ _ _ => .sneReg
  | .ldI _ => .ldI
  | .jpV0 _ => .jpV0
  | .rnd _ _ => .rnd
  | .drw _ _ _ => .drw
  | .skp _ => .skp
  | .sknp _ => .sknp
  | .ldVxDt _ => .ldVxDt
  | .ldVxK _ => .ldVxK
  | .ldDtVx _ => .ldDtVx
  | .ldStVx _ => .ldStVx
  | .addI _ => .addI
  | .ldF _ => .ldF
  | .ldB _ => .ldB
  | .storeRegs _ => .storeRegs
  | .loadRegs _ => .loadRegs
  | .unknown _ => .unknown

/-! ### Assembler syntax (R84) -/

/-- A number of so many hexadecimal digits, most significant first, capitals for the digits above 9. -/
def hexDigits : Nat → Nat → String
  | 0, _ => ""
  | n + 1, v => hexDigits n (v / 16) ++ String.singleton (Nat.digitChar (v % 16)).toUpper

/-- `V0`..`V9`, `VA`..`VF` (R21, R84). -/
def asmReg (x : RegIx) : String := "V" ++ hexDigits 1 x.val

/-- A hexadecimal operand of so many digits. -/
def asmHex (n v : Nat) : String := "0x" ++ hexDigits n v

/-- The instruction as the spec's listings write it (R84; decision D28). A word of no instruction is written as the
directive `DW`. -/
def Instr.assembly : Instr → String
  | .halt => "HALT"
  | .cls => "CLS"
  | .ret => "RET"
  | .jp nnn => "JP " ++ asmHex 3 nnn.toNat
  | .call nnn => "CALL " ++ asmHex 3 nnn.toNat
  | .seImm x kk => "SE " ++ asmReg x ++ "," ++ asmHex 2 kk.toNat
  | .sneImm x kk => "SNE " ++ asmReg x ++ "," ++ asmHex 2 kk.toNat
  | .seReg x y _ => "SE " ++ asmReg x ++ "," ++ asmReg y
  | .ldImm x kk => "LD " ++ asmReg x ++ "," ++ asmHex 2 kk.toNat
  | .addImm x kk => "ADD " ++ asmReg x ++ "," ++ asmHex 2 kk.toNat
  | .ldReg x y => "LD " ++ asmReg x ++ "," ++ asmReg y
  | .orReg x y => "OR " ++ asmReg x ++ "," ++ asmReg y
  | .andReg x y => "AND " ++ asmReg x ++ "," ++ asmReg y
  | .xorReg x y => "XOR " ++ asmReg x ++ "," ++ asmReg y
  | .addReg x y => "ADD " ++ asmReg x ++ "," ++ asmReg y
  | .sub x y => "SUB " ++ asmReg x ++ "," ++ asmReg y
  | .shr x _ => "SHR " ++ asmReg x
  | .subn x y => "SUBN " ++ asmReg x ++ "," ++ asmReg y
  | .shl x _ => "SHL " ++ asmReg x
  | .sneReg x y _ => "SNE " ++ asmReg x ++ "," ++ asmReg y
  | .ldI nnn => "LD I," ++ asmHex 3 nnn.toNat
  | .jpV0 nnn => "JP V0," ++ asmHex 3 nnn.toNat
  | .rnd x kk => "RND " ++ asmReg x ++ "," ++ asmHex 2 kk.toNat
  | .drw x y n => "DRW " ++ asmReg x ++ "," ++ asmReg y ++ "," ++ asmHex 1 n.val
  | .skp x => "SKP " ++ asmReg x
  | .sknp x => "SKNP " ++ asmReg x
  | .ldVxDt x => "LD " ++ asmReg x ++ ",DT"
  | .ldVxK x => "LD " ++ asmReg x ++ ",K"
  | .ldDtVx x => "LD DT," ++ asmReg x
  | .ldStVx x => "LD ST," ++ asmReg x
  | .addI x => "ADD I," ++ asmReg x
  | .ldF x => "LD F," ++ asmReg x
  | .ldB x => "LD B," ++ asmReg x
  | .storeRegs x => "LD [I]," ++ asmReg x
  | .loadRegs x => "LD " ++ asmReg x ++ ",[I]"
  | .unknown w => "DW " ++ asmHex 4 w.toNat

/-- The form an assembler emits: the nibble a skip ignores and the `y` a shift ignores are 0 (R78, R84). -/
def Instr.canonical : Instr → Instr
  | .halt => .halt
  | .cls => .cls
  | .ret => .ret
  | .jp nnn => .jp nnn
  | .call nnn => .call nnn
  | .seImm x kk => .seImm x kk
  | .sneImm x kk => .sneImm x kk
  | .seReg x y _ => .seReg x y 0
  | .ldImm x kk => .ldImm x kk
  | .addImm x kk => .addImm x kk
  | .ldReg x y => .ldReg x y
  | .orReg x y => .orReg x y
  | .andReg x y => .andReg x y
  | .xorReg x y => .xorReg x y
  | .addReg x y => .addReg x y
  | .sub x y => .sub x y
  | .shr x _ => .shr x 0
  | .subn x y => .subn x y
  | .shl x _ => .shl x 0
  | .sneReg x y _ => .sneReg x y 0
  | .ldI nnn => .ldI nnn
  | .jpV0 nnn => .jpV0 nnn
  | .rnd x kk => .rnd x kk
  | .drw x y n => .drw x y n
  | .skp x => .skp x
  | .sknp x => .sknp x
  | .ldVxDt x => .ldVxDt x
  | .ldVxK x => .ldVxK x
  | .ldDtVx x => .ldDtVx x
  | .ldStVx x => .ldStVx x
  | .addI x => .addI x
  | .ldF x => .ldF x
  | .ldB x => .ldB x
  | .storeRegs x => .storeRegs x
  | .loadRegs x => .loadRegs x
  | .unknown w => .unknown w

end Sys2Proof
end

