-- ==== Sys2Proof/Machine/State.lean ====
section
/-! DEFINITION. The state of the machine as plain data (spec/10_state.md R20 to R38), why it halts, and its value after
reset. The decoder holds no state (R20, R79). The last two fields are the model's own: they carry the host's inputs to
the cycle steps (R36), which are not state of the core. -/

namespace Sys2Proof.Machine

/-- Why the machine is halted (spec/10_state.md R32). -/
inductive HaltReason where
  /-- The sentinel `0x0000` was fetched: normal termination, no fault (R101, R225). -/
  | sentinel
  /-- `CALL` with sixteen return addresses on the stack (R221). -/
  | stackOverflow
  /-- `RET` with an empty stack (R222). -/
  | stackUnderflow
  /-- A fetch or an `I`-relative access out of range (R223). -/
  | addressingFault
  deriving DecidableEq, Repr

/-- `STATUS` (R32). -/
inductive Status where
  | running
  | halted (reason : HaltReason)
  deriving DecidableEq, Repr

/-- Why a step of the model could stop with no next state. It has NO constructor: every fault of the spec (R220) halts
the machine in a state the spec describes (R229), so the model answers that next state, and no step of this machine
stops without one (safe: nothing the hardware does is cut off). -/
inductive Fault where
  deriving DecidableEq, Repr

/-- An instruction the model gives no meaning. -/
inductive Refusal where
  /-- Raised by an arm of `exec` for an instruction with no meaning yet (safe: no claim follows). No arm raises it. -/
  | notModelled (mnemonic : String)
  deriving DecidableEq, Repr

/-- The 4096 bytes of `MEM` as the bytes that differ from their reset contents, addresses rising (R30). -/
abbrev Memory := List Host.Cell

/-- `FB`: 32 rows of 64 pixels; pixel (column `x`, row `y`) is bit `x` of row `y`, 1 is on (R20, R31, R200). -/
abbrev FrameBuffer := Vector (BitVec 64) 32

/-- The complete architectural state (R20), and the inputs waiting for the coming cycle steps (R36). -/
structure State where
  /-- `V[0]`..`V[15]` (R21). -/
  v : Vector Byte 16
  /-- `I` (R23). -/
  i : Word
  /-- `PC`: between cycles the address of the next opcode to fetch (R24). -/
  pc : Word
  /-- `DT` (R26). -/
  dt : Byte
  /-- `ST` (R27). -/
  st : Byte
  /-- `SP`: the depth of the return stack, 0 to 16 (R28). -/
  sp : Fin 17
  /-- `STACK[0]`..`STACK[15]` (R28). -/
  stack : Vector Word 16
  /-- `MEM` (R30). -/
  mem : Memory
  /-- `FB` (R31). -/
  fb : FrameBuffer
  /-- `STATUS` (R32). -/
  status : Status
  /-- THE MODEL'S OWN: the environment inputs of the coming cycle steps, the next one first. Where it is empty the
  inputs are free (log entry 4). -/
  inputs : List EnvInput
  /-- THE MODEL'S OWN: the number of the coming cycle step, the argument of the free input stream (log entry 4). -/
  cycle : Nat
  deriving DecidableEq, Repr

/-- Every part of the state after `Reset` (R38, R260). The memory lists nothing: an unlisted byte reads as its reset
contents. -/
def State.reset : State where
  v := Vector.replicate 16 0
  i := 0
  pc := 0x200
  dt := 0
  st := 0
  sp := 0
  stack := Vector.replicate 16 0
  mem := []
  fb := Vector.replicate 32 0
  status := .running
  inputs := []
  cycle := 0

end Sys2Proof.Machine
end

