-- ==== Sys2Proof/Machine/Ops.lean ====
section
/-! DEFINITION. The operations every meaning is made of: memory (spec/20_memory.md), registers, the stack
(spec/10_state.md R29), halting (spec/60_exceptions.md R229), and the parts of the cycle step
(spec/40_flow_control.md R100). Each register is read and written here and nowhere else. -/

namespace Sys2Proof.Machine

/-! ### Memory contents -/

/-- What address `a` holds after reset under a font of these bytes at this base: the font, zero elsewhere (R38, R51). -/
def resetByte (base : Nat) (font : Vector Byte 80) (a : Nat) : Byte :=
  if h : base ≤ a ∧ a < base + 80 then font[a - base]'(by omega) else 0

/-- What an address the memory does not list reads as: the reset contents (R38). The font lies below `0x200`
(R5), so from there on it is zero whatever the font is. -/
def Memory.unlisted (a : Nat) : Byte :=
  if a < 0x200 then resetByte Config.fontBase.val Config.fontData a else 0

/-- `MEM[a]` (R57). -/
def Memory.read : Memory → Nat → Byte
  | [], a => Memory.unlisted a
  | (k, b) :: m, a => if a = k then b else Memory.read m a

/-- `MEM[a] <- b` (R57): the list stays in address order and never lists a byte at its reset value. -/
def Memory.write : Memory → Nat → Byte → Memory
  | [], a, b => if b = Memory.unlisted a then [] else [(a, b)]
  | (k, c) :: m, a, b =>
    if a < k then (if b = Memory.unlisted a then (k, c) :: m else (a, b) :: (k, c) :: m)
    else if a = k then (if b = Memory.unlisted a then m else (a, b) :: m)
    else (k, c) :: Memory.write m a b

/-- The bytes at `a`, `a+1`, ... of a sequence, lowest address first (R52, R54). -/
def Memory.writeList : Memory → Nat → List Byte → Memory
  | m, _, [] => m
  | m, a, b :: bs => Memory.writeList (Memory.write m a b) (a + 1) bs

/-- The `n` bytes at `a`, `a+1`, ..., lowest address first (R52, R54). -/
def Memory.readList (m : Memory) : Nat → Nat → List Byte
  | _, 0 => []
  | a, n + 1 => Memory.read m a :: Memory.readList m (a + 1) n

/-- The canonical form from address `lo` on. -/
def Memory.wfFrom : Nat → Memory → Bool
  | _, [] => true
  | lo, (k, b) :: m =>
    decide (lo ≤ k) && decide (k < Config.memSize) && !(b == Memory.unlisted k) && Memory.wfFrom (k + 1) m

/-- The canonical form: addresses of `MEM`, strictly rising, none listed with the byte it would read as unlisted. -/
def Memory.wf (m : Memory) : Bool := Memory.wfFrom 0 m

/-! ### The result of an instruction -/

/-- What the rule of an instruction yields: the state with its writes applied, or the fault it raises (R100 step 7). -/
abbrev Effect := Except HaltReason State

/-- A fault or the sentinel halts the machine: `STATUS` records the reason and every other part of the state keeps its
value, `PC` included, which still holds the address of the opcode (R229; decision D3, log entry 6). There is no return
from it but `Reset` (R230). -/
def State.halt (s : State) (r : HaltReason) : State := { s with status := .halted r }

/-- R100 step 8: apply all the writes, or on a fault none of them. -/
def State.commit (s : State) (e : Effect) : Host.Outcome State Fault Refusal :=
  .next (match e with
    | .ok t => t
    | .error r => s.halt r)

/-! ### Registers -/

/-- `V[x]` (R21). -/
def State.reg (s : State) (x : RegIx) : Byte := s.v[x.val]

/-- `V[x] <- b` (R21). -/
def State.setReg (s : State) (x : RegIx) (b : Byte) : State := { s with v := s.v.set x.val b }

/-- `V[k] <- bs[k]` for every `k` the list has a byte for (R175). -/
def State.setRegs (s : State) (bs : List Byte) : State :=
  { s with v := Vector.ofFn fun k : Fin 16 => bs.getD k.val (s.reg k) }

/-- `I <- a` (R23). -/
def State.setI (s : State) (a : Word) : State := { s with i := a }

/-- `DT <- b` (R26). -/
def State.setDt (s : State) (b : Byte) : State := { s with dt := b }

/-- `ST <- b` (R27). -/
def State.setSt (s : State) (b : Byte) : State := { s with st := b }

/-- `FB <- f` (R31). -/
def State.setFb (s : State) (f : FrameBuffer) : State := { s with fb := f }

/-- `MEM <- m` (R30). -/
def State.setMem (s : State) (m : Memory) : State := { s with mem := m }

/-! ### The program counter (R24, R107) -/

/-- `pc`, the program counter an instruction sees: `A + 2` (R9, R24). -/
def State.nextPc (s : State) : Word := s.pc + 2

/-- `pc <- target` (R9). -/
def State.setPc (s : State) (a : Word) : State := { s with pc := a }

/-- The default advance: `pc` stays `A + 2` (R100 step 5, R107). -/
def State.advance (s : State) : State := s.setPc s.nextPc

/-- `Skip(cond)`: one further 2 where the condition holds (R120). -/
def State.skip (s : State) (cond : Bool) : State := s.setPc (if cond then s.nextPc + 2 else s.nextPc)

/-! ### The return stack (R28, R29) -/

/-- `Push(v)`. -/
def State.push (s : State) (a : Word) : Effect :=
  if h : s.sp.val < 16 then
    .ok { s with stack := s.stack.set s.sp.val a, sp := ⟨s.sp.val + 1, by omega⟩ }
  else .error .stackOverflow

/-- `Pop()`: the popped entry keeps its value (R28; decision D27). -/
def State.pop (s : State) : Except HaltReason (Word × State) :=
  if h : s.sp.val = 0 then .error .stackUnderflow
  else .ok (s.stack[s.sp.val - 1], { s with sp := ⟨s.sp.val - 1, by omega⟩ })

/-! ### The memory primitives and the bounds check (R52, R176) -/

/-- All of the `n` bytes at `a` lie in `MEM`; `a` is a natural number, never reduced (decision D13). With `n = 0` no
byte is accessed. -/
def inMemory (a n : Nat) : Bool := n == 0 || decide (a + n - 1 ≤ 0xFFF)

/-- `MemRead(a, n)`: the whole range is checked before any byte is read. -/
def State.memRead (s : State) (a n : Nat) : Except HaltReason (List Byte) :=
  if inMemory a n then .ok (s.mem.readList a n) else .error .addressingFault

/-- `MemWrite(a, n, bs)`: the whole range is checked before any byte is written. -/
def State.memWrite (s : State) (a : Nat) (bs : List Byte) : Effect :=
  if inMemory a bs.length then .ok (s.setMem (s.mem.writeList a bs)) else .error .addressingFault

/-! ### The cycle step (R100) -/

/-- An opcode may be fetched from this address (R25, R56; decision D2, log entry 3). -/
def fetchable (a : Word) : Bool :=
  decide (a.toNat % 2 = 0) && decide (Config.pcLo ≤ a.toNat) && decide (a.toNat ≤ Config.pcHi)

/-- `Fetch()` (R53, R56). -/
def State.fetch (s : State) : Except HaltReason Word :=
  if fetchable s.pc then .ok (opcodeOf (s.mem.read s.pc.toNat) (s.mem.read (s.pc.toNat + 1)))
  else .error .addressingFault

/-- The environment inputs of this cycle (R36): the host's, or free ones where the state lists none (log entry 4). -/
def State.input (s : State) : EnvInput := s.inputs.headD (Config.envInput s.cycle)

/-- The cycle is over: the next one has inputs of its own (R36). -/
def State.endCycle (s : State) : State := { s with inputs := s.inputs.tail, cycle := s.cycle + 1 }

end Sys2Proof.Machine
end

