-- ==== Sys2Proof/Machine/Operands.lean ====
section
/-! DEFINITION. The operand forms: immediates (spec/30_encoding.md R81), effective addresses
(spec/43_index_memory.md R176), and what the special operands `K`, `F`, `B` and `[I]` stand for. -/

namespace Sys2Proof.Machine

/-- `nnn` as a value of `PC` or `I`: widened with zeros (R81). -/
def addrOf (nnn : BitVec 12) : Word := nnn.setWidth 16

/-- `V[x]` as an addend of `PC` or `I`: widened with zeros (R105, R171). -/
def widen (b : Byte) : Word := b.setWidth 16

/-- The effective address `I + k`, a natural number without wrap-around (R176; decision D13). -/
def State.ea (s : State) (k : Nat) : Nat := s.i.toNat + k

/-- `V[0]`..`V[x]`, the registers of a counted transfer (R174, R175). -/
def State.regsTo (s : State) (x : RegIx) : List Byte := s.v.toList.take (x.val + 1)

/-- The low nibble of a register value: the key `SKP` and `SKNP` ask about (R127; decision D16, log entry 9) and the
digit `LD F,Vx` takes (R172; decision D15, log entry 2). -/
def lowNibble (b : Byte) : Nat := b.toNat % 16

/-- `KeyHeld(k)` in this cycle, with `k` the low nibble of the register value (R36, R127). -/
def State.keyHeld (s : State) (b : Byte) : Bool := s.input.keyHeld.getLsbD (lowNibble b)

/-- A reported key as a register value (R191). -/
def keyValue (k : BitVec 4) : Byte := k.setWidth 8

/-- The base address of a digit's glyph, `FONT_BASE + FONT_STRIDE * d` (R172). -/
def glyphAddr (b : Byte) : Word := BitVec.ofNat 16 (Config.fontBase.val + Config.fontStride * lowNibble b)

/-- The decimal digits of a register value: hundreds, tens, ones (R173; decision D21, log entry 10). -/
def bcdDigits (b : Byte) : List Byte :=
  [BitVec.ofNat 8 (b.toNat / 100), BitVec.ofNat 8 (b.toNat / 10 % 10), BitVec.ofNat 8 (b.toNat % 10)]

end Sys2Proof.Machine
end

