-- ==== Sys2Proof/Machine/Flags.lean ====
section
/-! DEFINITION. The flag computations: the only flag is `V[15]`, and a flag is exactly `0x00` or `0x01`
(spec/10_state.md R22, R33; spec/42_alu.md R146 to R152). -/

namespace Sys2Proof.Machine

/-- `VF`, the register that doubles as the flag (R22). -/
def regF : RegIx := 15

/-- A condition as a flag value (R33). -/
def flag (b : Bool) : Byte := if b then 1 else 0

/-- `ADD Vx,Vy`: the 9-bit sum exceeds 255 (R146). -/
def carryFlag (a b : Byte) : Byte := flag (decide (a.toNat + b.toNat > 255))

/-- `SUB` and `SUBN`, minuend first: strictly greater; equal operands give `SUB_EQ_FLAG` (R147, R149). -/
def greaterFlag (a b : Byte) : Byte := if a = b then Config.subEqFlag else flag (decide (a.toNat > b.toNat))

/-- `SHR`: the bit shifted out on the right, before the shift (R148). -/
def lowBitFlag (a : Byte) : Byte := flag (a.getLsbD 0)

/-- `SHL`: the bit shifted out on the left, before the shift (R150). -/
def highBitFlag (a : Byte) : Byte := flag (a.getLsbD 7)

/-- The result to `V[x]`, then the flag to `V[15]`, so that with `x = 15` the flag remains (R151; decision D10,
log entry 7). Both were computed from the state before the cycle. -/
def State.setRegFlag (s : State) (x : RegIx) (result f : Byte) : State := (s.setReg x result).setReg regF f

end Sys2Proof.Machine
end

