-- ==== Sys2Proof/Machine/Alu.lean ====
section
/-! DEFINITION. Register load, arithmetic and logic (spec/42_alu.md R140 to R152). Operands are read before anything
is written (R151); arithmetic wraps modulo 256 (R152). -/

namespace Sys2Proof.Machine

/-- `LD Vx,kk` (R140). -/
def execLdImm (x : RegIx) (kk : Byte) (s : State) : Host.Outcome State Fault Refusal :=
  s.commit (.ok (s.setReg x kk).advance)

/-- `ADD Vx,kk` (R141): no flag. -/
def execAddImm (x : RegIx) (kk : Byte) (s : State) : Host.Outcome State Fault Refusal :=
  s.commit (.ok (s.setReg x (s.reg x + kk)).advance)

/-- `LD Vx,Vy` (R142). -/
def execLdReg (x y : RegIx) (s : State) : Host.Outcome State Fault Refusal :=
  s.commit (.ok (s.setReg x (s.reg y)).advance)

/-- `OR Vx,Vy` (R143): no flag. -/
def execOr (x y : RegIx) (s : State) : Host.Outcome State Fault Refusal :=
  s.commit (.ok (s.setReg x (s.reg x ||| s.reg y)).advance)

/-- `AND Vx,Vy` (R144): no flag. -/
def execAnd (x y : RegIx) (s : State) : Host.Outcome State Fault Refusal :=
  s.commit (.ok (s.setReg x (s.reg x &&& s.reg y)).advance)

/-- `XOR Vx,Vy` (R145): no flag. -/
def execXor (x y : RegIx) (s : State) : Host.Outcome State Fault Refusal :=
  s.commit (.ok (s.setReg x (s.reg x ^^^ s.reg y)).advance)

/-- `ADD Vx,Vy` (R146). -/
def execAddReg (x y : RegIx) (s : State) : Host.Outcome State Fault Refusal :=
  s.commit (.ok (s.setRegFlag x (s.reg x + s.reg y) (carryFlag (s.reg x) (s.reg y))).advance)

/-- `SUB Vx,Vy` (R147). -/
def execSub (x y : RegIx) (s : State) : Host.Outcome State Fault Refusal :=
  s.commit (.ok (s.setRegFlag x (s.reg x - s.reg y) (greaterFlag (s.reg x) (s.reg y))).advance)

/-- `SHR Vx` (R148): the `y` field selects nothing. -/
def execShr (x : RegIx) (s : State) : Host.Outcome State Fault Refusal :=
  s.commit (.ok (s.setRegFlag x (s.reg x >>> 1) (lowBitFlag (s.reg x))).advance)

/-- `SUBN Vx,Vy` (R149). -/
def execSubn (x y : RegIx) (s : State) : Host.Outcome State Fault Refusal :=
  s.commit (.ok (s.setRegFlag x (s.reg y - s.reg x) (greaterFlag (s.reg y) (s.reg x))).advance)

/-- `SHL Vx` (R150): the `y` field selects nothing. -/
def execShl (x : RegIx) (s : State) : Host.Outcome State Fault Refusal :=
  s.commit (.ok (s.setRegFlag x (s.reg x <<< 1) (highBitFlag (s.reg x))).advance)

end Sys2Proof.Machine
end

