-- ==== Sys2Proof/Machine/Display.lean ====
section
/-! DEFINITION. The block `framebuffer_xor_sprite` (spec/45_draw.md R200 to R209) and its two instructions. -/

namespace Sys2Proof.Machine

/-- `FB[y][x]` (R200). -/
def FrameBuffer.pixel (f : FrameBuffer) (y : Row) (x : Column) : Bool := f[y.val].getLsbD x.val

/-- The operation `Clear` (R201, R207): every pixel off. -/
def FrameBuffer.clear : FrameBuffer := Vector.replicate 32 0

/-- The sprite bit of column `c` of a row byte: column 0 is bit 7 (R206; decision D20, log entry 11). -/
def spriteBit (row : Byte) (c : Nat) : Bool := row.getLsbD (7 - c)

/-- One pixel of one display row: `bit` is XORed into column `px`; the flag becomes true when the pixel goes from on to
off (R203, R204). -/
def plot (px : Column) (bit : Bool) (line : BitVec 64 × Bool) : BitVec 64 × Bool :=
  let old := line.1.getLsbD px.val
  (if bit then line.1 ^^^ BitVec.twoPow 64 px.val else line.1, line.2 || (old && bit))

/-- One sprite row over the display row it lands on: the 8 columns, wrapping at 64 (R203). -/
def plotRow (vx : Byte) (row : Byte) (line : BitVec 64 × Bool) : BitVec 64 × Bool :=
  (List.range 8).foldl (fun l c => plot (Fin.ofNat 64 (vx.toNat + c)) (spriteBit row c) l) line

/-- The operation `Draw` from sprite row `r` on: display rows wrap at 32 (R203). Returns the buffer and the collision
flag. -/
def drawFrom (vx vy : Byte) : Nat → List Byte → FrameBuffer × Bool → FrameBuffer × Bool
  | _, [], d => d
  | r, row :: rows, d =>
    let py : Row := Fin.ofNat 32 (vy.toNat + r)
    let line := plotRow vx row (d.1[py.val], d.2)
    drawFrom vx vy (r + 1) rows (d.1.set py.val line.1, line.2)

/-- The operation `Draw` (R203, R207): the flag starts false for each draw (R204). -/
def FrameBuffer.draw (f : FrameBuffer) (vx vy : Byte) (rows : List Byte) : FrameBuffer × Bool :=
  drawFrom vx vy 0 rows (f, false)

/-- `CLS` (R201): no flag. -/
def execCls (s : State) : Host.Outcome State Fault Refusal := s.commit (.ok (s.setFb FrameBuffer.clear).advance)

/-- `DRW Vx,Vy,n` (R202, R205): coordinates and sprite bytes are read first; `VF` is always written. -/
def execDrw (x y n : RegIx) (s : State) : Host.Outcome State Fault Refusal :=
  s.commit ((s.memRead (s.ea 0) n.val).map fun rows =>
    let d := s.fb.draw (s.reg x) (s.reg y) rows
    ((s.setFb d.1).setReg regF (flag d.2)).advance)

end Sys2Proof.Machine
end

