-- ==== Sys2Proof/Machine/Flow.lean ====
section
/-! DEFINITION. Control transfer (spec/40_flow_control.md R101 to R107). A target is assigned without a check; a bad
one faults at the next fetch (R25, R107). -/

namespace Sys2Proof.Machine

/-- `HALT` (R101): the machine halts with no fault, `PC` keeps the sentinel's address. -/
def execHalt (s : State) : Host.Outcome State Fault Refusal := s.commit (.error .sentinel)

/-- `RET` (R102). -/
def execRet (s : State) : Host.Outcome State Fault Refusal :=
  s.commit (s.pop.map fun (target, t) => t.setPc target)

/-- `JP nnn` (R103). -/
def execJp (nnn : BitVec 12) (s : State) : Host.Outcome State Fault Refusal := s.commit (.ok (s.setPc (addrOf nnn)))

/-- `CALL nnn` (R104): the pushed address is the advanced `A + 2`. -/
def execCall (nnn : BitVec 12) (s : State) : Host.Outcome State Fault Refusal :=
  s.commit ((s.push s.nextPc).map fun t => t.setPc (addrOf nnn))

/-- `JP V0,nnn` (R105): the register is always `V[0]`, the sum is not reduced to 12 bits (decision D31). -/
def execJpV0 (nnn : BitVec 12) (s : State) : Host.Outcome State Fault Refusal :=
  s.commit (.ok (s.setPc (addrOf nnn + widen (s.reg 0))))

/-- `UNKNOWN` (R106): no effect but the default advance. -/
def execUnknown (_w : Word) (s : State) : Host.Outcome State Fault Refusal := s.commit (.ok s.advance)

end Sys2Proof.Machine
end

