-- ==== Sys2Proof/Machine/IndexMemory.lean ====
section
/-! DEFINITION. The index register and memory transfer (spec/43_index_memory.md R170 to R177). A transfer checks its
whole range first and leaves `I` as it is (R176; decisions D12, D13). -/

namespace Sys2Proof.Machine

/-- `LD I,nnn` (R170). -/
def execLdI (nnn : BitVec 12) (s : State) : Host.Outcome State Fault Refusal :=
  s.commit (.ok (s.setI (addrOf nnn)).advance)

/-- `ADD I,Vx` (R171): the sum wraps modulo 65536, no flag (decision D14). -/
def execAddI (x : RegIx) (s : State) : Host.Outcome State Fault Refusal :=
  s.commit (.ok (s.setI (s.i + widen (s.reg x))).advance)

/-- `LD F,Vx` (R172): computes an address, reads no memory. -/
def execLdF (x : RegIx) (s : State) : Host.Outcome State Fault Refusal :=
  s.commit (.ok (s.setI (glyphAddr (s.reg x))).advance)

/-- `LD B,Vx` (R173). -/
def execLdB (x : RegIx) (s : State) : Host.Outcome State Fault Refusal :=
  s.commit ((s.memWrite (s.ea 0) (bcdDigits (s.reg x))).map State.advance)

/-- `LD [I],Vx` (R174). -/
def execStoreRegs (x : RegIx) (s : State) : Host.Outcome State Fault Refusal :=
  s.commit ((s.memWrite (s.ea 0) (s.regsTo x)).map State.advance)

/-- `LD Vx,[I]` (R175). -/
def execLoadRegs (x : RegIx) (s : State) : Host.Outcome State Fault Refusal :=
  s.commit ((s.memRead (s.ea 0) (x.val + 1)).map fun bs => (s.setRegs bs).advance)

end Sys2Proof.Machine
end

