-- ==== Sys2Proof/Machine/Skips.lean ====
section
/-! DEFINITION. The conditional skips (spec/41_skips.md R120 to R127). None writes anything but `PC`. -/

namespace Sys2Proof.Machine

/-- `SE Vx,kk` (R121). -/
def execSeImm (x : RegIx) (kk : Byte) (s : State) : Host.Outcome State Fault Refusal :=
  s.commit (.ok (s.skip (s.reg x == kk)))

/-- `SNE Vx,kk` (R122). -/
def execSneImm (x : RegIx) (kk : Byte) (s : State) : Host.Outcome State Fault Refusal :=
  s.commit (.ok (s.skip (s.reg x != kk)))

/-- `SE Vx,Vy` (R123). -/
def execSeReg (x y : RegIx) (s : State) : Host.Outcome State Fault Refusal :=
  s.commit (.ok (s.skip (s.reg x == s.reg y)))

/-- `SNE Vx,Vy` (R124). -/
def execSneReg (x y : RegIx) (s : State) : Host.Outcome State Fault Refusal :=
  s.commit (.ok (s.skip (s.reg x != s.reg y)))

/-- `SKP Vx` (R125). -/
def execSkp (x : RegIx) (s : State) : Host.Outcome State Fault Refusal :=
  s.commit (.ok (s.skip (s.keyHeld (s.reg x))))

/-- `SKNP Vx` (R126). -/
def execSknp (x : RegIx) (s : State) : Host.Outcome State Fault Refusal :=
  s.commit (.ok (s.skip (!s.keyHeld (s.reg x))))

end Sys2Proof.Machine
end

