-- ==== Sys2Proof/Machine/Timers.lean ====
section
/-! DEFINITION. Timers, key wait and random (spec/44_timers_keys_random.md R190 to R194). -/

namespace Sys2Proof.Machine

/-- `LD Vx,DT` (R190). -/
def execLdVxDt (x : RegIx) (s : State) : Host.Outcome State Fault Refusal :=
  s.commit (.ok (s.setReg x s.dt).advance)

/-- `LD Vx,K` (R191): with no key event `pc` goes back to `A`, so the same opcode is fetched again; the core keeps no
memory of having waited. -/
def execLdVxK (x : RegIx) (s : State) : Host.Outcome State Fault Refusal :=
  s.commit (.ok (match s.input.keyEvent with
    | none => s.setPc (s.nextPc - 2)
    | some k => (s.setReg x (keyValue k)).advance))

/-- `LD DT,Vx` (R192). -/
def execLdDtVx (x : RegIx) (s : State) : Host.Outcome State Fault Refusal :=
  s.commit (.ok (s.setDt (s.reg x)).advance)

/-- `LD ST,Vx` (R193). -/
def execLdStVx (x : RegIx) (s : State) : Host.Outcome State Fault Refusal :=
  s.commit (.ok (s.setSt (s.reg x)).advance)

/-- `RND Vx,kk` (R194): the random byte is this cycle's environment input (decision D18, log entry 4). -/
def execRnd (x : RegIx) (kk : Byte) (s : State) : Host.Outcome State Fault Refusal :=
  s.commit (.ok (s.setReg x (s.input.randByte &&& kk)).advance)

end Sys2Proof.Machine
end

