-- ==== Sys2Proof/Machine/Step.lean ====
section
/-! DEFINITION. The cycle step (spec/40_flow_control.md R100), and how the host of this model places one instruction
where the next step fetches it. -/

namespace Sys2Proof.Machine

/-- One cycle step. A halted machine answers the state it is in (R230). A running one fetches, decodes, executes and
commits as one indivisible change (R59); the tests come in the order of spec/60_exceptions.md R228. -/
def step (s : State) : Host.Outcome State Fault Refusal :=
  match s.status with
  | .halted _ => .next s
  | .running =>
    match s.fetch with
    | .error r => .next (s.halt r).endCycle
    | .ok w =>
      match exec (decode w) s with
      | .next t => .next t.endCycle
      | .fault f => .fault f
      | .refused r => .refused r

/-- The state with an instruction of at most 16 bits (R70) stored big-endian where `step` fetches its next instruction.
A state whose next step fetches nothing (halted, or `PC` out of range) is set running at `PROG_BASE`. -/
def State.withFetchWord (s : State) (nbits w : Nat) : State :=
  let op : Word := BitVec.ofNat 16 (w % 2 ^ nbits)
  let t : State := if fetchable s.pc && s.status == .running then s else { s with pc := 0x200, status := .running }
  t.setMem (t.mem.writeList t.pc.toNat [op.extractLsb' 8 8, op.extractLsb' 0 8])

end Sys2Proof.Machine
end

