-- ==== Sys2Proof/Machine/HostOps.lean ====
section
/-! DEFINITION. The host's side of the machine: the complete list of operations of spec/10_state.md R37, each between
cycle steps (R7), with what each reports. -/

namespace Sys2Proof.Machine

/-- The numeric code of `STATUS`, the output `fault_reason` (R32, R220; decision D24). -/
def statusCode : Status → Nat
  | .running => 0
  | .halted .sentinel => 1
  | .halted .stackOverflow => 2
  | .halted .stackUnderflow => 3
  | .halted .addressingFault => 4

/-- The five results of a cycle step (spec/60_exceptions.md R238). -/
inductive StepResult where
  | ok | halt | stackOverflow | stackUnderflow | addressingFault
  deriving DecidableEq, Repr

/-- The result a step reports, read from the `STATUS` it leaves: `Ok` while `Running`, else the reason (R238). -/
def stepResult : Status → StepResult
  | .running => .ok
  | .halted .sentinel => .halt
  | .halted .stackOverflow => .stackOverflow
  | .halted .stackUnderflow => .stackUnderflow
  | .halted .addressingFault => .addressingFault

/-- The results of `LoadProgram` (R224, R263); `programTooLarge` has code 5 and is never a `STATUS` (R32). -/
inductive LoadResult where
  | ok | programTooLarge
  deriving DecidableEq, Repr

/-- The numeric code of a load's result: 5 for `ProgramTooLarge`, 0 for no error (R220; decision D24). -/
def loadCode : LoadResult → Nat
  | .ok => 0
  | .programTooLarge => 5

/-- `Reset` in any state (spec/70_reset_and_hazards.md R260). The inputs waiting for later cycles are the host's, not
the core's, and stay (log entry 4). -/
def State.hostReset (s : State) : State := { State.reset with inputs := s.inputs, cycle := s.cycle }

/-- `LoadProgram(b)` (R263): an image longer than `PROG_MAX` is refused whole; else it is copied from `0x200` on. It
looks at no `STATUS` and changes nothing but `MEM` (R230). -/
def State.loadProgram (s : State) (b : List Byte) : State × LoadResult :=
  if b.length > Config.progMax then (s, .programTooLarge)
  else (s.setMem (s.mem.writeList Config.progBase b), .ok)

/-- `TickDelay()` (spec/44_timers_keys_random.md R195): stops at zero (decision D23, log entry 12). -/
def State.tickDelay (s : State) : State := if s.dt = 0 then s else s.setDt (s.dt - 1)

/-- `TickSound()` (R195): stops at zero (decision D23, log entry 12). -/
def State.tickSound (s : State) : State := if s.st = 0 then s else s.setSt (s.st - 1)

/-- `Query(qx, qy)` (spec/45_draw.md R209). -/
def State.query (s : State) (qx : Column) (qy : Row) : Bool := FrameBuffer.pixel s.fb qy qx

/-- `QueryAll()`: the 2048 pixels in row-major order (R209). -/
def State.queryAll (s : State) : List Bool :=
  (List.finRange 32).flatMap fun y => (List.finRange 64).map fun x => FrameBuffer.pixel s.fb y x

/-- `Step(inputs)` as the host requests it (R37, R100): this cycle takes the host's inputs, and those that wait for
later cycles stay as they are. -/
def State.hostStep (s : State) (e : EnvInput) : Host.Outcome State Fault Refusal :=
  match step { s with inputs := e :: s.inputs } with
  | .next t => .next { t with inputs := s.inputs }
  | .fault f => .fault f
  | .refused r => .refused r

/-- The host operations, the complete list of R37. -/
inductive HostOp where
  | reset
  | loadProgram (image : List Byte)
  | step (inputs : EnvInput)
  | tickDelay
  | tickSound
  | readDelay
  | readSound
  | query (qx : Column) (qy : Row)
  | queryAll
  /-- Read of any state, after a halt too: "exposes the last valid state and the fault reason" (R37, R229). -/
  | readState
  deriving DecidableEq, Repr

/-- What a host operation reports. -/
inductive HostReply where
  | done
  | load (r : LoadResult)
  | stepped (r : StepResult)
  | timer (b : Byte)
  | pixel (on : Bool)
  | grid (pixels : List Bool)
  | exposed (s : State)
  deriving DecidableEq, Repr

/-- One host operation between cycle steps: the state after it and what it reports (R37). -/
def hostOp (o : HostOp) (s : State) : Host.Outcome (State × HostReply) Fault Refusal :=
  match o with
  | .reset => .next (s.hostReset, .done)
  | .loadProgram b => .next ((s.loadProgram b).1, .load (s.loadProgram b).2)
  | .step e =>
    match s.hostStep e with
    | .next t => .next (t, .stepped (stepResult t.status))
    | .fault f => .fault f
    | .refused r => .refused r
  | .tickDelay => .next (s.tickDelay, .done)
  | .tickSound => .next (s.tickSound, .done)
  | .readDelay => .next (s, .timer s.dt)
  | .readSound => .next (s, .timer s.st)
  | .query x y => .next (s, .pixel (s.query x y))
  | .queryAll => .next (s, .grid s.queryAll)
  | .readState => .next (s, .exposed s)

/-- A schedule of the host: its operations one after the other, cycle steps among them, in any number and order (R7,
R195). This is a run of the whole machine with its one other agent. -/
def hostRun : List HostOp → State → Host.Outcome State Fault Refusal
  | [], s => .next s
  | o :: os, s =>
    match hostOp o s with
    | .next (t, _) => hostRun os t
    | .fault f => .fault f
    | .refused r => .refused r

end Sys2Proof.Machine
end

