-- ==== Sys2Proof/Safety.lean ====
section
/-! DEFINITION. The terms the claims are made in: what an instruction leaves alone, the spec's own summary tables
(which registers an instruction writes, where it leaves `PC`, when it faults), and the invariant of a run. Each table is
written from the rule that states it, not from the meanings. -/

namespace Sys2Proof.Machine

/-! ### Frames -/

/-- Every general register outside `may` keeps its value. -/
def RegsKept (may : RegIx → Bool) (s t : State) : Prop := ∀ j, may j = false → t.reg j = s.reg j

/-- The return stack, dead entries included, is as it was. -/
def StackKept (s t : State) : Prop := t.sp = s.sp ∧ ∀ k : Fin 16, t.stack[k.val] = s.stack[k.val]

/-- Every byte of memory reads as before. -/
def MemoryKept (s t : State) : Prop := ∀ a, t.mem.read a = s.mem.read a

/-- Every byte of memory outside the `n` bytes at `a` reads as before. -/
def MemoryKeptOutside (a n : Nat) (s t : State) : Prop := ∀ b, b < a ∨ a + n ≤ b → t.mem.read b = s.mem.read b

/-- Every pixel is as it was. -/
def DisplayKept (s t : State) : Prop := ∀ (y : Row) (x : Column), t.fb.pixel y x = s.fb.pixel y x

/-- Neither timer is written. -/
def TimersKept (s t : State) : Prop := t.dt = s.dt ∧ t.st = s.st

/-- `STATUS` and the waiting environment inputs are as they were. -/
def ControlKept (s t : State) : Prop := t.status = s.status ∧ t.inputs = s.inputs ∧ t.cycle = s.cycle

/-- Nothing but the registers of `may`, and `PC`, can differ. -/
def OnlyRegsAndPc (may : RegIx → Bool) (s t : State) : Prop :=
  RegsKept may s t ∧ t.i = s.i ∧ TimersKept s t ∧ StackKept s t ∧ MemoryKept s t ∧ DisplayKept s t ∧ ControlKept s t

/-- No general register may differ. -/
def noReg : RegIx → Bool := fun _ => false

/-- One general register may differ. -/
def oneReg (x : RegIx) : RegIx → Bool := fun j => j == x

/-- One general register and the flag may differ. -/
def oneRegAndFlag (x : RegIx) : RegIx → Bool := fun j => j == x || j == regF

/-! ### The spec's summary tables -/

/-- Which general registers an instruction writes, as a result or as the flag (spec/10_state.md R21). -/
def writesReg : Instr → RegIx → Bool
  | .halt | .cls | .ret | .jp _ | .call _ | .jpV0 _ | .unknown _ => noReg
  | .seImm _ _ | .sneImm _ _ | .seReg _ _ _ | .sneReg _ _ _ | .skp _ | .sknp _ => noReg
  | .ldImm x _ | .addImm x _ | .rnd x _ | .ldVxDt x | .ldVxK x => oneReg x
  | .ldReg x _ | .orReg x _ | .andReg x _ | .xorReg x _ => oneReg x
  | .addReg x _ | .sub x _ | .shr x _ | .subn x _ | .shl x _ => oneRegAndFlag x
  | .drw _ _ _ => oneReg regF
  | .ldI _ | .addI _ | .ldF _ | .ldB _ | .storeRegs _ | .ldDtVx _ | .ldStVx _ => noReg
  | .loadRegs x => fun j => decide (j.val ≤ x.val)

/-- When an instruction halts the machine, and with what reason (spec/60_exceptions.md R221, R222, R223, R225). -/
def faultOf : Instr → State → Option HaltReason
  | .halt, _ => some .sentinel
  | .call _, s => if s.sp.val = 16 then some .stackOverflow else none
  | .ret, s => if s.sp.val = 0 then some .stackUnderflow else none
  | .drw _ _ n, s => if n.val > 0 ∧ s.i.toNat + n.val - 1 > 0xFFF then some .addressingFault else none
  | .ldB _, s => if s.i.toNat + 2 > 0xFFF then some .addressingFault else none
  | .storeRegs x, s => if s.i.toNat + x.val > 0xFFF then some .addressingFault else none
  | .loadRegs x, s => if s.i.toNat + x.val > 0xFFF then some .addressingFault else none
  | .cls, _ | .jp _, _ | .jpV0 _, _ | .unknown _, _ => none
  | .seImm _ _, _ | .sneImm _ _, _ | .seReg _ _ _, _ | .sneReg _ _ _, _ | .skp _, _ | .sknp _, _ => none
  | .ldImm _ _, _ | .addImm _ _, _ | .ldReg _ _, _ | .orReg _ _, _ | .andReg _ _, _ | .xorReg _ _, _ => none
  | .addReg _ _, _ | .sub _ _, _ | .shr _ _, _ | .subn _ _, _ | .shl _ _, _ => none
  | .ldI _, _ | .addI _, _ | .ldF _, _ => none
  | .rnd _ _, _ | .ldVxDt _, _ | .ldVxK _, _ | .ldDtVx _, _ | .ldStVx _, _ => none

/-- Where a condition takes a skip, as an address: `A + 4`, else `A + 2` (spec/10_state.md R24). -/
def skipTo (a : Nat) (taken : Bool) : Nat := if taken then a + 4 else a + 2

/-- `PC` after an instruction fetched from `A` that does not halt the machine (spec/10_state.md R24). -/
def pcAfter (i : Instr) (s : State) : Nat :=
  let a := s.pc.toNat
  match i with
  | .halt => a
  | .ret => (s.stack[s.sp.val - 1]'(by omega)).toNat
  | .jp nnn => nnn.toNat
  | .call nnn => nnn.toNat
  | .jpV0 nnn => nnn.toNat + (s.reg 0).toNat
  | .seImm x kk => skipTo a (s.reg x == kk)
  | .sneImm x kk => skipTo a (s.reg x != kk)
  | .seReg x y _ => skipTo a (s.reg x == s.reg y)
  | .sneReg x y _ => skipTo a (s.reg x != s.reg y)
  | .skp x => skipTo a (s.input.keyHeld.getLsbD ((s.reg x).toNat % 16))
  | .sknp x => skipTo a (!s.input.keyHeld.getLsbD ((s.reg x).toNat % 16))
  | .ldVxK _ => if s.input.keyEvent = none then a else a + 2
  | .cls | .unknown _ | .ldImm _ _ | .addImm _ _ | .rnd _ _ | .ldVxDt _ | .ldDtVx _ | .ldStVx _ => a + 2
  | .ldReg _ _ | .orReg _ _ | .andReg _ _ | .xorReg _ _ | .addReg _ _ | .sub _ _ | .shr _ _ | .subn _ _ => a + 2
  | .shl _ _ | .ldI _ | .addI _ | .ldF _ | .ldB _ | .storeRegs _ | .loadRegs _ | .drw _ _ _ => a + 2

/-- Two inputs agree in what the instruction reads of them (the "read by" column of spec/10_state.md R36). -/
def SameInputsRead : Instr → EnvInput → EnvInput → Prop
  | .skp _, a, b | .sknp _, a, b => a.keyHeld = b.keyHeld
  | .ldVxK _, a, b => a.keyEvent = b.keyEvent
  | .rnd _ _, a, b => a.randByte = b.randByte
  | .halt, _, _ | .cls, _, _ | .ret, _, _ | .jp _, _, _ | .call _, _, _ | .jpV0 _, _, _ | .unknown _, _, _ => True
  | .seImm _ _, _, _ | .sneImm _ _, _, _ | .seReg _ _ _, _, _ | .sneReg _ _ _, _, _ => True
  | .ldImm _ _, _, _ | .addImm _ _, _, _ | .ldReg _ _, _, _ | .orReg _ _, _, _ | .andReg _ _, _, _ => True
  | .xorReg _ _, _, _ | .addReg _ _, _, _ | .sub _ _, _, _ | .shr _ _, _, _ | .subn _ _, _, _ | .shl _ _, _, _ => True
  | .ldI _, _, _ | .addI _, _, _ | .ldF _, _, _ | .ldB _, _, _ | .storeRegs _, _, _ | .loadRegs _, _, _ => True
  | .ldVxDt _, _, _ | .ldDtVx _, _, _ | .ldStVx _, _, _ | .drw _ _ _, _, _ => True

/-- Consecutive `CALL` instructions, one for each target (spec/60_exceptions.md R221). -/
def execCalls : List (BitVec 12) → State → Host.Outcome State Fault Refusal
  | [], s => .next s
  | nnn :: rest, s =>
    match exec (.call nnn) s with
    | .next t => execCalls rest t
    | .fault f => .fault f
    | .refused r => .refused r

/-! ### Stores seen by the fetch -/

/-- The byte at address `a` once these bytes are stored from `base` on (spec/20_memory.md R54, R57). -/
def byteAfterStore (s : State) (base : Nat) (bytes : List Byte) (a : Nat) : Byte :=
  if base ≤ a then bytes.getD (a - base) (s.mem.read a) else s.mem.read a

/-- The opcode at address `a`, high byte first, once these bytes are stored (spec/20_memory.md R53, R62). -/
def opcodeAfterStore (s : State) (base : Nat) (bytes : List Byte) (a : Nat) : Word :=
  opcodeOf (byteAfterStore s base bytes a) (byteAfterStore s base bytes (a + 1))

/-! ### Drawing -/

/-- A sprite of `n` bytes from `I`, drawn at the values of `V[x]` and `V[y]`, has a 1 bit over pixel (`px`, `py`)
(spec/45_draw.md R203, R206). -/
def SpriteCovers (s : State) (x y n : RegIx) (py : Row) (px : Column) : Prop :=
  ∃ r c : Nat, r < n.val ∧ c < 8 ∧ py.val = ((s.reg y).toNat + r) % 32 ∧ px.val = ((s.reg x).toNat + c) % 64 ∧
    (s.mem.read (s.i.toNat + r)).getLsbD (7 - c) = true

/-! ### The invariant of a run -/

/-- Memory keeps its canonical form and its 4096 addresses (R30). -/
def MemoryCanonical (s : State) : Prop := s.mem.wf = true

/-- `PC` never exceeds `0x10FE` (R24). -/
def PcBounded (s : State) : Prop := s.pc.toNat ≤ 0x10FE

/-- Every live return address is what a `CALL` at a fetchable address pushes: even, `0x202` to `0x1000` (R102). -/
def ReturnsSound (s : State) : Prop :=
  ∀ k : Fin 16, k.val < s.sp.val →
    s.stack[k.val].toNat % 2 = 0 ∧ 0x202 ≤ s.stack[k.val].toNat ∧ s.stack[k.val].toNat ≤ 0x1000

/-- The instruction `PC` points at, where an opcode can be fetched there. -/
def State.pending (s : State) : Option Instr :=
  match s.fetch with
  | .ok w => some (decode w)
  | .error _ => none

/-- A halted machine still shows why it halted: the opcode at `PC` and the exposed state give the reason again
(spec/60_exceptions.md R220, R229). -/
def HaltExplained (s : State) : Prop :=
  ∀ r, s.status = .halted r →
    match s.pending with
    | none => r = .addressingFault
    | some i => faultOf i s = some r

/-- What holds of the core between any two host operations. -/
def CoreInv (s : State) : Prop := MemoryCanonical s ∧ PcBounded s ∧ ReturnsSound s

/-- What holds of a run made of cycle steps alone (a host that loads over a halted machine can hide the reason). -/
def Inv (s : State) : Prop := CoreInv s ∧ HaltExplained s

end Sys2Proof.Machine
end

