-- ==== Sys2Proof/Certificates/Slice0/Obligations.lean ====
section
/-! DEFINITION. The statements for the provers, grouped as the spec's files are. Each docstring names the rule or the
decision of the spec the statement formalises; "the model's choice" marks a clause that rests on a decision of the spec
(spec/92_eei_decisions.md) or on a log entry, not on the document. -/

open Sys2Proof Sys2Proof.Machine

/-! ### Encoding (spec/30_encoding.md) -/

/-- Words written out from the patterns of R86 decode to the instruction they stand for. The numbers are general
knowledge of the spec's (decision D9, log entry 16), but for the document's own `6005`, `6103`, `8014`, `0000`; `0000`
has a row of its own by log entry 5. Two clauses are the model's choice: that `5AB7`, with nibble 7, is a skip (decision
D8, log entry 14), and that family 0 compares the whole word, so that `00FE` is `UNKNOWN` (decision D6, log entry 15). -/
def Obligations.SpecWordsDecode : Prop :=
  decode 0x0000#16 = .halt ∧ decode 0x00E0#16 = .cls ∧ decode 0x00EE#16 = .ret ∧
  decode 0x6005#16 = .ldImm 0 5 ∧ decode 0x6103#16 = .ldImm 1 3 ∧ decode 0x8014#16 = .addReg 0 1 ∧
  decode 0x1ABC#16 = .jp 0xABC ∧ decode 0xBFFF#16 = .jpV0 0xFFF ∧ decode 0x5AB7#16 = .seReg 10 11 7 ∧
  decode 0x8AB6#16 = .shr 10 11 ∧ decode 0xC10F#16 = .rnd 1 0x0F ∧ decode 0xD012#16 = .drw 0 1 2 ∧
  decode 0xE59E#16 = .skp 5 ∧ decode 0xF255#16 = .storeRegs 2 ∧ decode 0x00FE#16 = .unknown 0x00FE

/-- No bit of an encoding is lost: decoding the word of a well-formed instruction gives it back, with every operand at
every value, and so does the byte stream it is laid out in, which leaves the bytes after it. -/
def Obligations.DecodeInvertsEncode : Prop :=
  ∀ i : Instr, i.wellFormed = true →
    decode (encode i) = i ∧ ∀ rest, decodeBytes (encodeBytes i ++ rest) = .ok (i, rest)

/-- The decoder is total, and each word has one meaning: what it answers is well formed and encodes to the same word
(R79, R82). -/
def Obligations.EncodeInvertsDecode : Prop :=
  ∀ w : Word, (decode w).wellFormed = true ∧ encode (decode w) = w

/-- The two-level dispatch of R73 to R78 and the match and mask table of R86 give every word the same kind, and no two
rows of the table take one word. -/
def Obligations.DispatchAgreesWithOpcodeTable : Prop :=
  (∀ w : Word, kindOf (decode w) = decoderKind w) ∧
  (∀ w : Word, ∀ r ∈ opcodeRows, ∀ q ∈ opcodeRows, r.takes w = true → q.takes w = true → r = q)

/-- The bits an instruction ignores change nothing: the canonical form an assembler emits is well formed and does the
same in every state (R78, R84, R123, R148, R150). That the skips ignore their low nibble is the model's choice
(decision D8, log entry 14). -/
def Obligations.CanonicalFormMeansTheSame : Prop :=
  ∀ i : Instr, (i.wellFormed = true → i.canonical.wellFormed = true) ∧ ∀ s : State, exec i.canonical s = exec i s

/-! ### The cycle step (spec/40_flow_control.md R100, spec/60_exceptions.md R228) -/

/-- A step of a running machine whose `PC` is even and in `0x200`..`0xFFE` (the bounds of decision D2, log entry 3) runs
exactly the instruction whose two bytes lie there, high byte first, and then gives the next cycle inputs of its own. -/
def Obligations.StepRunsTheInstructionAtPc : Prop :=
  ∀ (s t : State) (i : Instr), s.status = .running → s.pc.toNat % 2 = 0 → 0x200 ≤ s.pc.toNat → s.pc.toNat ≤ 0xFFE →
    i.wellFormed = true → s.mem.read s.pc.toNat = (encode i).extractLsb' 8 8 →
    s.mem.read (s.pc.toNat + 1) = (encode i).extractLsb' 0 8 → exec i s = .next t →
    step s = .next { t with inputs := s.inputs.tail, cycle := s.cycle + 1 }

/-- Every step answers a next state, whatever the state: no fault of the spec stops the model without one. -/
def Obligations.EveryStepAnswersANextState : Prop := ∀ s : State, ∃ t, step s = .next t

/-- The order of the tests of one cycle (R228): a halted machine does not change (the model's choice, decision D5); a
bad `PC` comes before the sentinel, the sentinel before the instruction's own fault, and each of the three changes
`STATUS` alone besides consuming the cycle's inputs (decisions D2, D3, D4); else the machine keeps running. -/
def Obligations.CycleTestsInOrder : Prop :=
  ∀ s : State,
    (∀ r, s.status = .halted r → step s = .next s) ∧
    (s.status = .running →
      (s.pc.toNat % 2 = 1 ∨ s.pc.toNat < 0x200 ∨ 0xFFE < s.pc.toNat →
        step s = .next (s.halt .addressingFault).endCycle) ∧
      (s.pc.toNat % 2 = 0 → 0x200 ≤ s.pc.toNat → s.pc.toNat ≤ 0xFFE →
        (s.mem.read s.pc.toNat = 0 → s.mem.read (s.pc.toNat + 1) = 0 →
          step s = .next (s.halt .sentinel).endCycle) ∧
        (∀ w r, w = opcodeOf (s.mem.read s.pc.toNat) (s.mem.read (s.pc.toNat + 1)) → w ≠ 0 →
          faultOf (decode w) s = some r → step s = .next (s.halt r).endCycle) ∧
        (∀ w, w = opcodeOf (s.mem.read s.pc.toNat) (s.mem.read (s.pc.toNat + 1)) →
          faultOf (decode w) s = none → ∃ t, step s = .next t ∧ t.status = .running)))

/-! ### Faults (spec/60_exceptions.md) -/

/-- An instruction halts the machine exactly where the tables of R221 to R223 and R225 say, with that reason, and then
nothing but `STATUS` changes (R229; the exposed `PC` is the model's choice, decision D3, and so are the unreduced
addresses, decision D13, and that a draw of no rows has none, decision D19). -/
def Obligations.InstructionsFaultExactlyAsListed : Prop :=
  ∀ (i : Instr) (s : State),
    (∀ r, faultOf i s = some r → exec i s = .next (s.halt r)) ∧
    (faultOf i s = none → ∃ t, exec i s = .next t ∧ t.status = s.status)

/-- R29: the two stack primitives. A push on a full stack and a pop of an empty one raise; else a push stores at the
depth and raises it, a pop lowers the depth and answers the entry there. Sixteen pushes on an empty stack succeed and a
seventeenth raises. That the popped entry keeps its value is the model's choice (decision D27, log entry 26). -/
def Obligations.StackPrimitives : Prop :=
  ∀ (s : State) (a : Word),
    (s.sp.val = 16 → s.push a = .error .stackOverflow) ∧
    (s.sp.val ≠ 16 → ∃ t, s.push a = .ok t ∧ t.sp.val = s.sp.val + 1 ∧
      (∀ k : Fin 16, t.stack[k.val] = if k.val = s.sp.val then a else s.stack[k.val]) ∧
      t = { s with stack := t.stack, sp := t.sp }) ∧
    (s.sp.val = 0 → s.pop = .error .stackUnderflow) ∧
    (s.sp.val ≠ 0 → ∃ t, s.pop = .ok (s.stack[s.sp.val - 1], t) ∧ t.sp.val = s.sp.val - 1 ∧ t = { s with sp := t.sp }) ∧
    (∀ values : List Word, s.sp.val = 0 → values.length = 16 →
      ∃ t, values.foldlM State.push s = .ok t ∧ t.push a = .error .stackOverflow)

/-- R221: `StackOverflow` is raised by `CALL nnn` when `SP = 16` before the instruction, and by nothing else that a
cycle can do. Sixteen consecutive calls on an empty stack succeed and a seventeenth raises it. That the seventeenth
leaves `PC` and everything else but `STATUS` is the model's choice (decision D3, log entry 6). -/
def Obligations.StackOverflowExactlyAtFullCall : Prop :=
  (∀ s t : State, s.status = .running → step s = .next t →
    (t.status = .halted .stackOverflow ↔ (∃ nnn, s.pending = some (.call nnn)) ∧ s.sp.val = 16)) ∧
  (∀ (s : State) (targets : List (BitVec 12)), s.status = .running → s.sp.val = 0 → targets.length = 16 →
    ∃ t, execCalls targets s = .next t ∧ t.status = .running ∧
      ∀ nnn, exec (.call nnn) t = .next (t.halt .stackOverflow))

/-- R222: `StackUnderflow` is raised by `RET` when `SP = 0` before the instruction, and by nothing else that a cycle can
do. -/
def Obligations.StackUnderflowExactlyAtEmptyRet : Prop :=
  ∀ s t : State, s.status = .running → step s = .next t →
    (t.status = .halted .stackUnderflow ↔ s.pending = some .ret ∧ s.sp.val = 0)

/-- R223: `AddressingFault` has exactly five causes. The bounds of the fetch are the model's choice (decision D2), and
so are that `I + k` is not reduced (decision D13) and that a draw of no rows has no address (decision D19). -/
def Obligations.AddressingFaultHasFiveCauses : Prop :=
  ∀ s t : State, s.status = .running → step s = .next t →
    (t.status = .halted .addressingFault ↔
      (s.pc.toNat % 2 = 1 ∨ s.pc.toNat < 0x200 ∨ 0xFFE < s.pc.toNat) ∨
      ∃ i, s.pending = some i ∧
        ((∃ x y n, i = .drw x y n ∧ 0 < n.val ∧ 0xFFF < s.i.toNat + n.val - 1) ∨
         (∃ x, i = .ldB x ∧ 0xFFF < s.i.toNat + 2) ∨
         (∃ x, i = .storeRegs x ∧ 0xFFF < s.i.toNat + x.val) ∨
         (∃ x, i = .loadRegs x ∧ 0xFFF < s.i.toNat + x.val)))

/-! ### Invariants -/

/-- Every cycle step keeps the invariant: memory canonical, `PC` at most `0x10FE`, every live return address even and in
`0x202`..`0x1000`, and a halted machine still shows at `PC` why it halted. The lower bound `0x202` rests on `PC_LO`
(decision D2, log entry 3), and what a halted machine shows at `PC` on decisions D3 and D4 (log entry 6): both are the
model's choices. -/
def Obligations.StepKeepsInvariant : Prop := ∀ s t : State, Inv s → step s = .next t → Inv t

/-- The invariant holds right after reset. -/
def Obligations.ResetMeetsInvariant : Prop := Inv State.reset

/-- Whatever the host does, operations and cycle steps in any number and order (R7, R37; `hostRun`, log entry 30): the
invariant of the core, whose bounds are those R24 and R102 derive, holds at the end if it held at the start. The lower
bound `0x202` rests on `PC_LO` (decision D2, log entry 3); that `LoadProgram` may run over a running or halted machine is
the model's choice (decisions D25 and D29, log entry 24). -/
def Obligations.EveryHostScheduleKeepsCoreInvariant : Prop :=
  ∀ (os : List HostOp) (s t : State), CoreInv s → hostRun os s = .next t → CoreInv t

/-- Equal memories are equal data: two canonical memories that read the same at every address are the same list. -/
def Obligations.CanonicalMemoriesAreEqualData : Prop :=
  ∀ m n : Memory, m.wf = true → n.wf = true → (∀ a, m.read a = n.read a) → m = n

/-! ### Who writes what (spec/10_state.md) -/

/-- The table of R21: an instruction writes no general register outside those the table gives it, the flag included. -/
def Obligations.RegistersWrittenOnlyAsListed : Prop :=
  ∀ (i : Instr) (s t : State) (j : RegIx), exec i s = .next t → writesReg i j = false → t.reg j = s.reg j

/-- The table of R24: where each instruction that does not halt the machine leaves `PC`. The entry for `LD Vx,K` rests on
decision D17, that for `JP V0,nnn` on D31, those for the keypad skips on D16. -/
def Obligations.PcAfterEachInstruction : Prop :=
  ∀ (i : Instr) (s : State), s.pc.toNat ≤ 0xFFE → faultOf i s = none →
    ∃ t, exec i s = .next t ∧ t.pc.toNat = pcAfter i s

/-- R31, R200: the display is written by `DRW` and `CLS` and by no other instruction. -/
def Obligations.DisplayWrittenOnlyByDrawAndClear : Prop :=
  ∀ (i : Instr) (s t : State), exec i s = .next t → i ≠ .cls → (∀ x y n, i ≠ .drw x y n) → DisplayKept s t

/-- R50: of all the instructions only `LD B,Vx` and `LD [I],Vx` write memory. -/
def Obligations.MemoryWrittenOnlyByTheTwoStores : Prop :=
  ∀ (i : Instr) (s t : State), exec i s = .next t → (∀ x, i ≠ .ldB x) → (∀ x, i ≠ .storeRegs x) → MemoryKept s t

/-- R28: only `CALL` and `RET` reach the return stack. Any other instruction leaves the depth and every entry as they
were, and reads neither: under any other depth and entries it does the same to every other part of the state. -/
def Obligations.StackReachedOnlyByCallAndRet : Prop :=
  ∀ (i : Instr) (s t : State), exec i s = .next t → i ≠ .ret → (∀ nnn, i ≠ .call nnn) →
    StackKept s t ∧ ∀ (depth : Fin 17) (entries : Vector Word 16),
      exec i { s with sp := depth, stack := entries } = .next { t with sp := depth, stack := entries }

/-- R26, R27: the core never counts a timer down. No instruction but `LD DT,Vx` changes `DT`, none but `LD ST,Vx`
changes `ST`, and a whole cycle leaves each timer as it was unless the machine runs and its load is the instruction at
`PC`, which copies a register. -/
def Obligations.TimersChangeOnlyByTheirLoads : Prop :=
  (∀ (i : Instr) (s t : State), exec i s = .next t →
    ((∀ x, i ≠ .ldDtVx x) → t.dt = s.dt) ∧ ((∀ x, i ≠ .ldStVx x) → t.st = s.st)) ∧
  (∀ s t : State, step s = .next t →
    (t.dt = s.dt ∨ ∃ x, s.status = .running ∧ s.pending = some (.ldDtVx x) ∧ t.dt = s.reg x) ∧
    (t.st = s.st ∨ ∃ x, s.status = .running ∧ s.pending = some (.ldStVx x) ∧ t.st = s.reg x))

/-- R23: `I` is written by `LD I,nnn`, `ADD I,Vx` and `LD F,Vx` only; that the counted transfers leave it is the model's
choice (decision D12). -/
def Obligations.IndexWrittenOnlyByThree : Prop :=
  ∀ (i : Instr) (s t : State), exec i s = .next t →
    (∀ nnn, i ≠ .ldI nnn) → (∀ x, i ≠ .addI x) → (∀ x, i ≠ .ldF x) → t.i = s.i

/-! ### What cannot be learned -/

/-- R27: inside the core `ST` has no effect on any instruction (decision D34 of the spec, log entry 34). Two machines
that differ in `ST` alone still differ in `ST` alone after a step. -/
def Obligations.SoundTimerHasNoEffect : Prop :=
  ∀ (s t : State) (b : Byte), step s = .next t → ∃ c, step { s with st := b } = .next { t with st := c }

/-- R36: an input the executed instruction does not read has no effect on the cycle: other waiting inputs and another
cycle number, that agree with this cycle's input in what the instruction reads of it, give the same result. -/
def Obligations.UnreadInputsHaveNoEffect : Prop :=
  ∀ (i : Instr) (s t : State) (e : List EnvInput) (c : Nat),
    SameInputsRead i s.input (State.input { s with inputs := e, cycle := c }) → exec i s = .next t →
    exec i { s with inputs := e, cycle := c } = .next { t with inputs := e, cycle := c }

/-- R28: no program can observe a stack entry above the depth. Two machines that differ in dead entries alone still do
after a step. That a popped entry keeps its value is the model's choice (decision D27). -/
def Obligations.DeadStackEntriesUnobservable : Prop :=
  ∀ (s t : State) (other : Vector Word 16), (∀ k : Fin 16, k.val < s.sp.val → other[k.val] = s.stack[k.val]) →
    step s = .next t →
    ∃ after : Vector Word 16, step { s with stack := other } = .next { t with stack := after } ∧
      ∀ k : Fin 16, k.val < t.sp.val → after[k.val] = t.stack[k.val]

/-- R31: no instruction reads the display except `DRW`. -/
def Obligations.DisplayReadOnlyByDraw : Prop :=
  ∀ (i : Instr) (s t : State) (f : FrameBuffer), (∀ x y n, i ≠ .drw x y n) → exec i s = .next t →
    ∃ g, exec i { s with fb := f } = .next { t with fb := g }

/-! ### Control transfer (spec/40_flow_control.md) -/

/-- The sentinel halts the machine with no fault and every other part of the state keeps its value; `PC` staying is the
model's choice (decision D4). `UNKNOWN` has no effect but the default advance (R106). -/
def Obligations.HaltAndUnknownEffects : Prop :=
  ∀ (w : Word) (s : State),
    (∃ t, exec .halt s = .next t ∧ t.status = .halted .sentinel ∧ t = { s with status := t.status }) ∧
    (∃ t, exec (.unknown w) s = .next t ∧ t.pc = s.pc + 2 ∧ OnlyRegsAndPc noReg s t)

/-- `JP nnn` (R103) and `JP V0,nnn` (R105) assign `PC` with no check and nothing else changes; the sum is not reduced to
12 bits (the model's choice, decision D31). -/
def Obligations.JumpsAssignPc : Prop :=
  ∀ (nnn : BitVec 12) (s : State),
    (∃ t, exec (.jp nnn) s = .next t ∧ t.pc.toNat = nnn.toNat ∧ OnlyRegsAndPc noReg s t) ∧
    (∃ t, exec (.jpV0 nnn) s = .next t ∧ t.pc.toNat = nnn.toNat + (s.reg 0).toNat ∧ OnlyRegsAndPc noReg s t)

/-- A transfer to a bad address, odd, below `0x200` or above `0xFFE`, is made, and the next step of a running machine
raises `AddressingFault` with `PC` still at the bad target and the stack as the transfer left it (R102 to R105). The
moment of the check and the bounds are the model's choice (decision D2, log entry 3), and so is that the sum of
`JP V0,nnn` is not reduced (decision D31, log entry 21). -/
def Obligations.BadTargetsFaultOneStepLater : Prop :=
  ∀ (nnn : BitVec 12) (i : Instr) (target : Nat) (s t : State),
    ((i = .jp nnn ∨ i = .call nnn) ∧ target = nnn.toNat) ∨
      (i = .jpV0 nnn ∧ target = nnn.toNat + (s.reg 0).toNat) ∨
      (i = .ret ∧ ∃ k : Fin 16, s.sp.val = k.val + 1 ∧ target = s.stack[k.val].toNat) →
    target % 2 = 1 ∨ target < 0x200 ∨ 0xFFE < target → exec i s = .next t → t.status = .running →
    ∃ u, step t = .next u ∧ u.status = .halted .addressingFault ∧ u.pc.toNat = target ∧ StackKept t u

/-- `CALL nnn` with room on the stack pushes `A + 2` and assigns `PC` (R104): the entry pushed, the depth, and all that
stays. -/
def Obligations.CallPushesReturnAddress : Prop :=
  ∀ (nnn : BitVec 12) (s : State), s.sp.val < 16 →
    ∃ t, exec (.call nnn) s = .next t ∧ t.pc.toNat = nnn.toNat ∧ t.sp.val = s.sp.val + 1 ∧
      (∀ k : Fin 16, t.stack[k.val] = if k.val = s.sp.val then s.pc + 2 else s.stack[k.val]) ∧
      RegsKept noReg s t ∧ t.i = s.i ∧ TimersKept s t ∧ MemoryKept s t ∧ DisplayKept s t ∧ ControlKept s t

/-- `RET` with an entry on the stack takes the most recent one into `PC` (R102); the popped entry is not erased
(decision D27). -/
def Obligations.RetPopsReturnAddress : Prop :=
  ∀ (s : State) (k : Fin 16), s.sp.val = k.val + 1 →
    ∃ t, exec .ret s = .next t ∧ t.pc = s.stack[k.val] ∧ t.sp.val = k.val ∧
      (∀ j : Fin 16, t.stack[j.val] = s.stack[j.val]) ∧
      RegsKept noReg s t ∧ t.i = s.i ∧ TimersKept s t ∧ MemoryKept s t ∧ DisplayKept s t ∧ ControlKept s t

/-- A `RET` undoes a `CALL`: control comes back to the instruction after it, at the depth from before (R102, R104). -/
def Obligations.RetUndoesCall : Prop :=
  ∀ (nnn : BitVec 12) (s : State), s.sp.val < 16 →
    ∃ t u, exec (.call nnn) s = .next t ∧ exec .ret t = .next u ∧ u.pc = s.pc + 2 ∧ u.sp = s.sp

/-! ### Skips (spec/41_skips.md) -/

/-- The four register skips go to `A + 4` where the condition on the registers holds, else to `A + 2`, and write nothing
but `PC` (R120 to R124); that the low nibble is ignored is the model's choice (decision D8, log entry 14). -/
def Obligations.RegisterSkips : Prop :=
  ∀ (x y : RegIx) (kk : Byte) (low : BitVec 4) (s : State),
    (∃ t, exec (.seImm x kk) s = .next t ∧ t.pc = s.pc + (if s.reg x = kk then 4 else 2) ∧
      OnlyRegsAndPc noReg s t) ∧
    (∃ t, exec (.sneImm x kk) s = .next t ∧ t.pc = s.pc + (if s.reg x ≠ kk then 4 else 2) ∧
      OnlyRegsAndPc noReg s t) ∧
    (∃ t, exec (.seReg x y low) s = .next t ∧ t.pc = s.pc + (if s.reg x = s.reg y then 4 else 2) ∧
      OnlyRegsAndPc noReg s t) ∧
    (∃ t, exec (.sneReg x y low) s = .next t ∧ t.pc = s.pc + (if s.reg x ≠ s.reg y then 4 else 2) ∧
      OnlyRegsAndPc noReg s t)

/-- The keypad skips ask whether key `V[x] mod 16` is held in this cycle, and write nothing but `PC` (R125, R126). That
the low nibble names the key is the model's choice (decision D16, log entry 9). -/
def Obligations.KeypadSkips : Prop :=
  ∀ (x : RegIx) (s : State),
    (∃ t, exec (.skp x) s = .next t ∧
      t.pc = s.pc + (if s.input.keyHeld.getLsbD ((s.reg x).toNat % 16) = true then 4 else 2) ∧
      OnlyRegsAndPc noReg s t) ∧
    (∃ t, exec (.sknp x) s = .next t ∧
      t.pc = s.pc + (if s.input.keyHeld.getLsbD ((s.reg x).toNat % 16) = false then 4 else 2) ∧
      OnlyRegsAndPc noReg s t)

/-! ### Arithmetic and logic (spec/42_alu.md) -/

/-- `LD Vx,kk`, `ADD Vx,kk`, `LD Vx,Vy`, `OR`, `AND`, `XOR` write the value of R140 to R145 to `V[x]`, no flag, and go on
at `A + 2`; the sum is truncated to 8 bits. -/
def Obligations.LoadsAddAndLogic : Prop :=
  ∀ (x y : RegIx) (kk : Byte) (s : State),
    (∃ t, exec (.ldImm x kk) s = .next t ∧ t.reg x = kk ∧ t.pc = s.pc + 2 ∧ OnlyRegsAndPc (oneReg x) s t) ∧
    (∃ t, exec (.addImm x kk) s = .next t ∧ (t.reg x).toNat = ((s.reg x).toNat + kk.toNat) % 256 ∧
      t.pc = s.pc + 2 ∧ OnlyRegsAndPc (oneReg x) s t) ∧
    (∃ t, exec (.ldReg x y) s = .next t ∧ t.reg x = s.reg y ∧ t.pc = s.pc + 2 ∧ OnlyRegsAndPc (oneReg x) s t) ∧
    (∃ t, exec (.orReg x y) s = .next t ∧
      (∀ b, (t.reg x).getLsbD b = ((s.reg x).getLsbD b || (s.reg y).getLsbD b)) ∧
      t.pc = s.pc + 2 ∧ OnlyRegsAndPc (oneReg x) s t) ∧
    (∃ t, exec (.andReg x y) s = .next t ∧
      (∀ b, (t.reg x).getLsbD b = ((s.reg x).getLsbD b && (s.reg y).getLsbD b)) ∧
      t.pc = s.pc + 2 ∧ OnlyRegsAndPc (oneReg x) s t) ∧
    (∃ t, exec (.xorReg x y) s = .next t ∧
      (∀ b, (t.reg x).getLsbD b = ((s.reg x).getLsbD b ^^ (s.reg y).getLsbD b)) ∧
      t.pc = s.pc + 2 ∧ OnlyRegsAndPc (oneReg x) s t)

/-- `ADD Vx,Vy`, `SUB`, `SUBN` (R146, R147, R149): `V[15]` ends as the flag of the operands as they were, and any other
`V[x]` as the result modulo 256. That the flag remains when `x = 15` is the model's choice (decision D10, log entry 7),
and so is the flag of equal operands (decision D11, log entry 8). -/
def Obligations.AddAndSubtractWithFlag : Prop :=
  ∀ (x y : RegIx) (s : State),
    (∃ t, exec (.addReg x y) s = .next t ∧
      t.reg 15 = (if 255 < (s.reg x).toNat + (s.reg y).toNat then 1 else 0) ∧
      (x ≠ 15 → (t.reg x).toNat = ((s.reg x).toNat + (s.reg y).toNat) % 256) ∧
      t.pc = s.pc + 2 ∧ OnlyRegsAndPc (oneRegAndFlag x) s t) ∧
    (∃ t, exec (.sub x y) s = .next t ∧
      t.reg 15 = (if (s.reg y).toNat < (s.reg x).toNat then 1 else 0) ∧
      (x ≠ 15 → ((t.reg x).toNat : Int) = ((s.reg x).toNat - (s.reg y).toNat : Int) % 256) ∧
      t.pc = s.pc + 2 ∧ OnlyRegsAndPc (oneRegAndFlag x) s t) ∧
    (∃ t, exec (.subn x y) s = .next t ∧
      t.reg 15 = (if (s.reg x).toNat < (s.reg y).toNat then 1 else 0) ∧
      (x ≠ 15 → ((t.reg x).toNat : Int) = ((s.reg y).toNat - (s.reg x).toNat : Int) % 256) ∧
      t.pc = s.pc + 2 ∧ OnlyRegsAndPc (oneRegAndFlag x) s t)

/-- `SHR Vx`, `SHL Vx` (R148, R150) shift `V[x]` by one, whatever `y` the word holds, and `V[15]` ends as the bit shifted
out; with `x = 15` the flag remains (the model's choice, decision D10, log entry 7). -/
def Obligations.ShiftsWithFlag : Prop :=
  ∀ (x y : RegIx) (s : State),
    (∃ t, exec (.shr x y) s = .next t ∧ (t.reg 15).toNat = (s.reg x).toNat % 2 ∧
      (x ≠ 15 → (t.reg x).toNat = (s.reg x).toNat / 2) ∧
      t.pc = s.pc + 2 ∧ OnlyRegsAndPc (oneRegAndFlag x) s t) ∧
    (∃ t, exec (.shl x y) s = .next t ∧ (t.reg 15).toNat = (s.reg x).toNat / 128 ∧
      (x ≠ 15 → (t.reg x).toNat = (s.reg x).toNat * 2 % 256) ∧
      t.pc = s.pc + 2 ∧ OnlyRegsAndPc (oneRegAndFlag x) s t)

/-! ### Index register and memory transfer (spec/43_index_memory.md) -/

/-- `LD I,nnn` (R170), `ADD I,Vx` (R171) and `LD F,Vx` (R172) write `I` alone. The wrap of the sum is the model's choice
(decision D14), the glyph's stride and the low nibble are decision D15 (log entry 2), and `FONT_BASE` is free (log
entry 1). -/
def Obligations.IndexLoads : Prop :=
  ∀ (nnn : BitVec 12) (x : RegIx) (s : State),
    (∃ t, exec (.ldI nnn) s = .next t ∧ t.i.toNat = nnn.toNat ∧ t.pc = s.pc + 2 ∧ RegsKept noReg s t ∧
      TimersKept s t ∧ StackKept s t ∧ MemoryKept s t ∧ DisplayKept s t ∧ ControlKept s t) ∧
    (∃ t, exec (.addI x) s = .next t ∧ t.i.toNat = (s.i.toNat + (s.reg x).toNat) % 65536 ∧ t.pc = s.pc + 2 ∧
      RegsKept noReg s t ∧ TimersKept s t ∧ StackKept s t ∧ MemoryKept s t ∧ DisplayKept s t ∧ ControlKept s t) ∧
    (∃ t, exec (.ldF x) s = .next t ∧ t.i.toNat = Config.fontBase.val + 5 * ((s.reg x).toNat % 16) ∧
      t.pc = s.pc + 2 ∧ RegsKept noReg s t ∧ TimersKept s t ∧ StackKept s t ∧ MemoryKept s t ∧ DisplayKept s t ∧
      ControlKept s t)

/-- `LD B,Vx` (R173) stores three decimal digits of `V[x]` at `I`, `I+1`, `I+2` and changes no other byte; the most
significant digit first is the model's choice (decision D21, log entry 10). Above `0xFFD` it faults and writes nothing. -/
def Obligations.BcdStoresThreeDigits : Prop :=
  ∀ (x : RegIx) (s : State), s.mem.wf = true →
    (s.i.toNat ≤ 0xFFD → ∃ t, exec (.ldB x) s = .next t ∧
      (t.mem.read (s.ea 0)).toNat = (s.reg x).toNat / 100 ∧
      (t.mem.read (s.ea 1)).toNat = (s.reg x).toNat / 10 % 10 ∧
      (t.mem.read (s.ea 2)).toNat = (s.reg x).toNat % 10 ∧
      MemoryKeptOutside (s.ea 0) 3 s t ∧ t.pc = s.pc + 2 ∧ RegsKept noReg s t ∧ t.i = s.i ∧ TimersKept s t ∧
      StackKept s t ∧ DisplayKept s t ∧ ControlKept s t) ∧
    (0xFFD < s.i.toNat → exec (.ldB x) s = .next (s.halt .addressingFault))

/-- `LD [I],Vx` (R174) copies `V[0]`..`V[x]` to the bytes from `I` on and changes no other byte and not `I` (decision
D12). With the last byte beyond `0xFFF` it faults and writes nothing (decision D13). -/
def Obligations.StoreRegisters : Prop :=
  ∀ (x : RegIx) (s : State), s.mem.wf = true →
    (s.i.toNat + x.val ≤ 0xFFF → ∃ t, exec (.storeRegs x) s = .next t ∧
      (∀ k : RegIx, k.val ≤ x.val → t.mem.read (s.ea k.val) = s.reg k) ∧
      MemoryKeptOutside (s.ea 0) (x.val + 1) s t ∧ t.pc = s.pc + 2 ∧ RegsKept noReg s t ∧ t.i = s.i ∧
      TimersKept s t ∧ StackKept s t ∧ DisplayKept s t ∧ ControlKept s t) ∧
    (0xFFF < s.i.toNat + x.val → exec (.storeRegs x) s = .next (s.halt .addressingFault))

/-- `LD Vx,[I]` (R175) loads `V[0]`..`V[x]` from the bytes from `I` on, and nothing above `x`; `I` stays (decision D12).
With the last byte beyond `0xFFF` it faults and writes no register (decision D13). -/
def Obligations.LoadRegisters : Prop :=
  ∀ (x : RegIx) (s : State),
    (s.i.toNat + x.val ≤ 0xFFF → ∃ t, exec (.loadRegs x) s = .next t ∧
      (∀ k : RegIx, k.val ≤ x.val → t.reg k = s.mem.read (s.ea k.val)) ∧ t.pc = s.pc + 2 ∧
      OnlyRegsAndPc (fun j => decide (j.val ≤ x.val)) s t) ∧
    (0xFFF < s.i.toNat + x.val → exec (.loadRegs x) s = .next (s.halt .addressingFault))

/-- The document's round trip (S-2): a store of `V[0]`..`V[x]`, whatever the registers and `PC` become in between, and a
load from the same base index give every one of the registers back, with `I` where it was (decision D12). -/
def Obligations.StoreThenLoadRestoresRegisters : Prop :=
  ∀ (x : RegIx) (s : State) (v : Vector Byte 16) (pc : Word), s.mem.wf = true → s.i.toNat + x.val ≤ 0xFFF →
    ∃ t u, exec (.storeRegs x) s = .next t ∧ exec (.loadRegs x) { t with v := v, pc := pc } = .next u ∧
      (∀ k : RegIx, k.val ≤ x.val → u.reg k = s.reg k) ∧ u.i = s.i

/-- Self-modifying code needs nothing in between (R62, which the spec derives; decision D33, log entry 34): after
`LD [I],Vx` or `LD B,Vx`, for every `x`, the very next fetch, at whatever address a running machine may fetch from, reads
the stored bytes where the store reaches the opcode, both bytes of it or one, and memory as it was elsewhere. The order
of the digits is the model's choice (decision D21, log entry 10). -/
def Obligations.StoredWordIsFetchedAtOnce : Prop :=
  ∀ (x : RegIx) (s : State) (a : Word), s.mem.wf = true → fetchable a = true →
    (s.i.toNat + x.val ≤ 0xFFF → ∃ t, exec (.storeRegs x) s = .next t ∧
      (t.setPc a).fetch = .ok (opcodeAfterStore s s.i.toNat (s.v.toList.take (x.val + 1)) a.toNat)) ∧
    (s.i.toNat + 2 ≤ 0xFFF → ∃ t, exec (.ldB x) s = .next t ∧
      (t.setPc a).fetch = .ok (opcodeAfterStore s s.i.toNat
        [BitVec.ofNat 8 ((s.reg x).toNat / 100), BitVec.ofNat 8 ((s.reg x).toNat / 10 % 10),
          BitVec.ofNat 8 ((s.reg x).toNat % 10)] a.toNat))

/-! ### Timers, keys, random (spec/44_timers_keys_random.md) -/

/-- `LD Vx,DT`, `LD DT,Vx`, `LD ST,Vx` copy one value and change nothing else (R190, R192, R193). -/
def Obligations.TimerLoads : Prop :=
  ∀ (x : RegIx) (s : State),
    (∃ t, exec (.ldVxDt x) s = .next t ∧ t.reg x = s.dt ∧ t.pc = s.pc + 2 ∧ OnlyRegsAndPc (oneReg x) s t) ∧
    (∃ t, exec (.ldDtVx x) s = .next t ∧ t.dt = s.reg x ∧ t.st = s.st ∧ t.pc = s.pc + 2 ∧ RegsKept noReg s t ∧
      t.i = s.i ∧ StackKept s t ∧ MemoryKept s t ∧ DisplayKept s t ∧ ControlKept s t) ∧
    (∃ t, exec (.ldStVx x) s = .next t ∧ t.st = s.reg x ∧ t.dt = s.dt ∧ t.pc = s.pc + 2 ∧ RegsKept noReg s t ∧
      t.i = s.i ∧ StackKept s t ∧ MemoryKept s t ∧ DisplayKept s t ∧ ControlKept s t)

/-- `LD Vx,K` (R191): with no key event the instruction changes no state at all, `PC` included, so it is fetched again
(the model's choice of rendering, decision D17); with one, `V[x]` is the key's value and control goes on. -/
def Obligations.KeyWaitReissues : Prop :=
  ∀ (x : RegIx) (s : State),
    (s.input.keyEvent = none → exec (.ldVxK x) s = .next s) ∧
    (∀ k, s.input.keyEvent = some k → ∃ t, exec (.ldVxK x) s = .next t ∧ (t.reg x).toNat = k.toNat ∧
      t.pc = s.pc + 2 ∧ OnlyRegsAndPc (oneReg x) s t)

/-- Progress past the wait (R191, R268): however many steps the host asks for with no key event, and the timers it ticks
between them aside, the first step with one completes the instruction (the rendering is decision D17). -/
def Obligations.KeyWaitEndsAtTheFirstKeyEvent : Prop :=
  ∀ (x : RegIx) (s : State) (waits : List EnvInput) (e : EnvInput) (k : BitVec 4),
    s.status = .running → s.pending = some (.ldVxK x) → (∀ w ∈ waits, w.keyEvent = none) → e.keyEvent = some k →
    ∃ t, hostRun (waits.map .step ++ [.step e]) s = .next t ∧ (t.reg x).toNat = k.toNat ∧ t.pc = s.pc + 2 ∧
      t.status = .running ∧ RegsKept (oneReg x) s t

/-- `RND Vx,kk` (R194): for every draw of the byte, a bit of `V[x]` is the draw's where `kk` has a 1, and 0 elsewhere.
The draw is a free input of the cycle (decision D18, log entry 4). -/
def Obligations.RandomIsMaskedDraw : Prop :=
  ∀ (x : RegIx) (kk : Byte) (s : State),
    ∃ t, exec (.rnd x kk) s = .next t ∧
      (∀ b, (t.reg x).getLsbD b = if kk.getLsbD b = true then s.input.randByte.getLsbD b else false) ∧
      t.pc = s.pc + 2 ∧ OnlyRegsAndPc (oneReg x) s t

/-! ### Display (spec/45_draw.md) -/

/-- `CLS` (R201) turns every pixel off and changes nothing else but `PC`; `VF` is unchanged. -/
def Obligations.ClearTurnsEveryPixelOff : Prop :=
  ∀ s : State, ∃ t, exec .cls s = .next t ∧ (∀ (y : Row) (x : Column), t.fb.pixel y x = false) ∧
    t.pc = s.pc + 2 ∧ RegsKept noReg s t ∧ t.i = s.i ∧ TimersKept s t ∧ StackKept s t ∧ MemoryKept s t ∧
    ControlKept s t

/-- `DRW Vx,Vy,n` (R202 to R206): with its sprite in memory it completes; exactly the pixels under a 1 bit of the
sprite, wrapped on both axes, change; `V[15]` is 1 if one of them was on, else 0; nothing else but `PC` changes. `n = 0`
reads nothing and clears `V[15]` (the model's choice, decision D19); column 0 is bit 7 (decision D20, log entry 11). -/
def Obligations.DrawTogglesExactlyTheSpritePixels : Prop :=
  ∀ (x y n : RegIx) (s : State), n.val = 0 ∨ s.i.toNat + n.val - 1 ≤ 0xFFF →
    ∃ t, exec (.drw x y n) s = .next t ∧
      (∀ (py : Row) (px : Column), SpriteCovers s x y n py px → t.fb.pixel py px = !s.fb.pixel py px) ∧
      (∀ (py : Row) (px : Column), ¬ SpriteCovers s x y n py px → t.fb.pixel py px = s.fb.pixel py px) ∧
      ((∃ py px, SpriteCovers s x y n py px ∧ s.fb.pixel py px = true) → t.reg 15 = 1) ∧
      ((∀ py px, SpriteCovers s x y n py px → s.fb.pixel py px = false) → t.reg 15 = 0) ∧
      t.pc = s.pc + 2 ∧ RegsKept (oneReg regF) s t ∧ t.i = s.i ∧ TimersKept s t ∧ StackKept s t ∧
      MemoryKept s t ∧ ControlKept s t

/-- The document's involution (R208): the same sprite drawn twice in succession at the same coordinates restores every
pixel, and with a 1 bit in the sprite at least one of the two draws reports a collision (a draw of no rows: decision D19,
log entry 20). -/
def Obligations.DrawTwiceRestoresTheDisplay : Prop :=
  ∀ (x y n : RegIx) (s : State), x ≠ 15 → y ≠ 15 → n.val = 0 ∨ s.i.toNat + n.val - 1 ≤ 0xFFF →
    ∃ t u, exec (.drw x y n) s = .next t ∧ exec (.drw x y n) t = .next u ∧ DisplayKept s u ∧
      ((∃ py px, SpriteCovers s x y n py px) → t.reg 15 = 1 ∨ u.reg 15 = 1) ∧
      ((∀ py px, ¬ SpriteCovers s x y n py px) → t.reg 15 = 0 ∧ u.reg 15 = 0)

/-! ### The host's operations (spec/10_state.md R37) -/

/-- `Reset` in any state (R38, R260): every part of the core has its reset value, the memory zero but for the font. All
values but `PC` and the empty stack are the model's choice (decision D22, log entry 13); the font is free (log
entry 1). -/
def Obligations.ResetGivesEveryPartItsValue : Prop :=
  ∀ (s t : State) (r : HostReply), hostOp .reset s = .next (t, r) →
    t.pc = 0x200 ∧ t.sp = 0 ∧ t.status = .running ∧ (∀ j, t.reg j = 0) ∧ t.i = 0 ∧ t.dt = 0 ∧ t.st = 0 ∧
    (∀ k : Fin 16, t.stack[k.val] = 0) ∧ (∀ (y : Row) (x : Column), t.fb.pixel y x = false) ∧
    (∀ k : Fin 80, t.mem.read (Config.fontBase.val + k.val) = Config.fontData[k.val]) ∧
    (∀ a, a < Config.fontBase.val ∨ Config.fontBase.val + 80 ≤ a → t.mem.read a = 0)

/-- `LoadProgram` (R263): an image of at most 3584 bytes is copied from `0x200` on and no other byte changes; a longer
one changes nothing and is reported (no partial copy: the model's choice, decision D25). Nothing but memory changes. -/
def Obligations.LoadProgramCopiesOrRefuses : Prop :=
  ∀ (b : List Byte) (s : State), s.mem.wf = true →
    (b.length ≤ 3584 → ∃ t, hostOp (.loadProgram b) s = .next (t, .load .ok) ∧
      (∀ k (h : k < b.length), t.mem.read (0x200 + k) = b[k]) ∧ MemoryKeptOutside 0x200 b.length s t ∧
      t.pc = s.pc ∧ RegsKept noReg s t ∧ t.i = s.i ∧ TimersKept s t ∧ StackKept s t ∧ DisplayKept s t ∧
      ControlKept s t) ∧
    (3584 < b.length → hostOp (.loadProgram b) s = .next (s, .load .programTooLarge))

/-- R224: `ProgramTooLarge` is the result of `LoadProgram` exactly when the image is longer than 3584 bytes; it is
reported to the host, does not change `STATUS` and does not halt the machine. -/
def Obligations.ProgramTooLargeIsOnlyReported : Prop :=
  ∀ (b : List Byte) (s t : State) (r : HostReply), hostOp (.loadProgram b) s = .next (t, r) →
    (r = .load .programTooLarge ↔ 3584 < b.length) ∧ t.status = s.status

/-- The two timer ticks (R195) are separate, whatever `STATUS` is; that a tick stops at zero is the model's choice
(decision D23, log entry 12). -/
def Obligations.TicksCountDownToZero : Prop :=
  ∀ s : State,
    (∃ t, hostOp .tickDelay s = .next (t, .done) ∧ t.dt.toNat = s.dt.toNat - 1 ∧ t.st = s.st ∧ t.pc = s.pc ∧
      RegsKept noReg s t ∧ t.i = s.i ∧ StackKept s t ∧ MemoryKept s t ∧ DisplayKept s t ∧ ControlKept s t) ∧
    (∃ t, hostOp .tickSound s = .next (t, .done) ∧ t.st.toNat = s.st.toNat - 1 ∧ t.dt = s.dt ∧ t.pc = s.pc ∧
      RegsKept noReg s t ∧ t.i = s.i ∧ StackKept s t ∧ MemoryKept s t ∧ DisplayKept s t ∧ ControlKept s t)

/-- The host's read port (R209): one pixel, or all 2048 in row-major order; read-only. -/
def Obligations.DisplayQueriesReadThePixels : Prop :=
  ∀ s : State,
    (∀ (qx : Column) (qy : Row), hostOp (.query qx qy) s = .next (s, .pixel (s.fb.pixel qy qx))) ∧
    (∃ g : List Bool, hostOp .queryAll s = .next (s, .grid g) ∧ g.length = 2048 ∧
      ∀ (qx : Column) (qy : Row), g[qy.val * 64 + qx.val]? = some (s.fb.pixel qy qx))

/-- R230: no host operation but `Reset` sets a halted machine running again, and its reason stays (that a step of a
halted machine is absorbed is the model's choice, decision D5). -/
def Obligations.OnlyResetLeavesHalted : Prop :=
  ∀ (o : HostOp) (s t : State) (r : HaltReason) (reply : HostReply), s.status = .halted r →
    hostOp o s = .next (t, reply) →
    (o = .reset → t.status = .running) ∧ (o ≠ .reset → t.status = .halted r) ∧
    (∀ e, o = .step e → t = s ∧ reply = .stepped (stepResult (.halted r)))

/-- R238: the five results a step reports to the host. `Ok` means the machine is still running, each of the others that
it is now halted with that reason. -/
def Obligations.StepReportsItsResult : Prop :=
  ∀ (s : State) (e : EnvInput), ∃ t r, hostOp (.step e) s = .next (t, .stepped r) ∧
    (r = .ok ↔ t.status = .running) ∧ (r = .halt ↔ t.status = .halted .sentinel) ∧
    (r = .stackOverflow ↔ t.status = .halted .stackOverflow) ∧
    (r = .stackUnderflow ↔ t.status = .halted .stackUnderflow) ∧
    (r = .addressingFault ↔ t.status = .halted .addressingFault)

/-- A cycle the host requests takes the inputs it supplies with it, and leaves those that wait for later cycles (R36,
R37; log entry 4). -/
def Obligations.HostStepUsesItsInputs : Prop :=
  ∀ (s u : State) (e : EnvInput) (w : Word), s.status = .running → s.fetch = .ok w →
    exec (decode w) { s with inputs := e :: s.inputs } = .next u →
    ∃ r, hostOp (.step e) s = .next ({ u with inputs := s.inputs, cycle := s.cycle + 1 }, r)
end

