-- ==== Sys2Proof/Laws/State.lean ====
section
/-! SUPPORT. What each update of the state leaves in each field, true by definition; no later proof unfolds a record
update. -/

namespace Sys2Proof.Machine

variable (s : State)

/-! ### `setReg` -/

@[simp] theorem State.setReg_v (x : RegIx) (b : Byte) : (s.setReg x b).v = s.v.set x.val b := rfl
@[simp] theorem State.setReg_i (x : RegIx) (b : Byte) : (s.setReg x b).i = s.i := rfl
@[simp] theorem State.setReg_pc (x : RegIx) (b : Byte) : (s.setReg x b).pc = s.pc := rfl
@[simp] theorem State.setReg_dt (x : RegIx) (b : Byte) : (s.setReg x b).dt = s.dt := rfl
@[simp] theorem State.setReg_st (x : RegIx) (b : Byte) : (s.setReg x b).st = s.st := rfl
@[simp] theorem State.setReg_sp (x : RegIx) (b : Byte) : (s.setReg x b).sp = s.sp := rfl
@[simp] theorem State.setReg_stack (x : RegIx) (b : Byte) : (s.setReg x b).stack = s.stack := rfl
@[simp] theorem State.setReg_mem (x : RegIx) (b : Byte) : (s.setReg x b).mem = s.mem := rfl
@[simp] theorem State.setReg_fb (x : RegIx) (b : Byte) : (s.setReg x b).fb = s.fb := rfl
@[simp] theorem State.setReg_status (x : RegIx) (b : Byte) : (s.setReg x b).status = s.status := rfl
@[simp] theorem State.setReg_inputs (x : RegIx) (b : Byte) : (s.setReg x b).inputs = s.inputs := rfl
@[simp] theorem State.setReg_cycle (x : RegIx) (b : Byte) : (s.setReg x b).cycle = s.cycle := rfl
@[simp] theorem State.setReg_input (x : RegIx) (b : Byte) : (s.setReg x b).input = s.input := rfl
@[simp] theorem State.setReg_ea (x : RegIx) (b : Byte) (k : Nat) : (s.setReg x b).ea k = s.ea k := rfl

/-! ### `setRegs` -/

@[simp] theorem State.setRegs_v (bs : List Byte) : (s.setRegs bs).v = Vector.ofFn fun k : Fin 16 => bs.getD k.val (s.reg k) := rfl
@[simp] theorem State.setRegs_i (bs : List Byte) : (s.setRegs bs).i = s.i := rfl
@[simp] theorem State.setRegs_pc (bs : List Byte) : (s.setRegs bs).pc = s.pc := rfl
@[simp] theorem State.setRegs_dt (bs : List Byte) : (s.setRegs bs).dt = s.dt := rfl
@[simp] theorem State.setRegs_st (bs : List Byte) : (s.setRegs bs).st = s.st := rfl
@[simp] theorem State.setRegs_sp (bs : List Byte) : (s.setRegs bs).sp = s.sp := rfl
@[simp] theorem State.setRegs_stack (bs : List Byte) : (s.setRegs bs).stack = s.stack := rfl
@[simp] theorem State.setRegs_mem (bs : List Byte) : (s.setRegs bs).mem = s.mem := rfl
@[simp] theorem State.setRegs_fb (bs : List Byte) : (s.setRegs bs).fb = s.fb := rfl
@[simp] theorem State.setRegs_status (bs : List Byte) : (s.setRegs bs).status = s.status := rfl
@[simp] theorem State.setRegs_inputs (bs : List Byte) : (s.setRegs bs).inputs = s.inputs := rfl
@[simp] theorem State.setRegs_cycle (bs : List Byte) : (s.setRegs bs).cycle = s.cycle := rfl
@[simp] theorem State.setRegs_input (bs : List Byte) : (s.setRegs bs).input = s.input := rfl
@[simp] theorem State.setRegs_ea (bs : List Byte) (k : Nat) : (s.setRegs bs).ea k = s.ea k := rfl

/-! ### `setRegFlag` -/

@[simp] theorem State.setRegFlag_v (x : RegIx) (b f : Byte) : (s.setRegFlag x b f).v = (s.v.set x.val b).set regF.val f := rfl
@[simp] theorem State.setRegFlag_i (x : RegIx) (b f : Byte) : (s.setRegFlag x b f).i = s.i := rfl
@[simp] theorem State.setRegFlag_pc (x : RegIx) (b f : Byte) : (s.setRegFlag x b f).pc = s.pc := rfl
@[simp] theorem State.setRegFlag_dt (x : RegIx) (b f : Byte) : (s.setRegFlag x b f).dt = s.dt := rfl
@[simp] theorem State.setRegFlag_st (x : RegIx) (b f : Byte) : (s.setRegFlag x b f).st = s.st := rfl
@[simp] theorem State.setRegFlag_sp (x : RegIx) (b f : Byte) : (s.setRegFlag x b f).sp = s.sp := rfl
@[simp] theorem State.setRegFlag_stack (x : RegIx) (b f : Byte) : (s.setRegFlag x b f).stack = s.stack := rfl
@[simp] theorem State.setRegFlag_mem (x : RegIx) (b f : Byte) : (s.setRegFlag x b f).mem = s.mem := rfl
@[simp] theorem State.setRegFlag_fb (x : RegIx) (b f : Byte) : (s.setRegFlag x b f).fb = s.fb := rfl
@[simp] theorem State.setRegFlag_status (x : RegIx) (b f : Byte) : (s.setRegFlag x b f).status = s.status := rfl
@[simp] theorem State.setRegFlag_inputs (x : RegIx) (b f : Byte) : (s.setRegFlag x b f).inputs = s.inputs := rfl
@[simp] theorem State.setRegFlag_cycle (x : RegIx) (b f : Byte) : (s.setRegFlag x b f).cycle = s.cycle := rfl
@[simp] theorem State.setRegFlag_input (x : RegIx) (b f : Byte) : (s.setRegFlag x b f).input = s.input := rfl
@[simp] theorem State.setRegFlag_ea (x : RegIx) (b f : Byte) (k : Nat) : (s.setRegFlag x b f).ea k = s.ea k := rfl

/-! ### `setI` -/

@[simp] theorem State.setI_v (a : Word) : (s.setI a).v = s.v := rfl
@[simp] theorem State.setI_i (a : Word) : (s.setI a).i = a := rfl
@[simp] theorem State.setI_pc (a : Word) : (s.setI a).pc = s.pc := rfl
@[simp] theorem State.setI_dt (a : Word) : (s.setI a).dt = s.dt := rfl
@[simp] theorem State.setI_st (a : Word) : (s.setI a).st = s.st := rfl
@[simp] theorem State.setI_sp (a : Word) : (s.setI a).sp = s.sp := rfl
@[simp] theorem State.setI_stack (a : Word) : (s.setI a).stack = s.stack := rfl
@[simp] theorem State.setI_mem (a : Word) : (s.setI a).mem = s.mem := rfl
@[simp] theorem State.setI_fb (a : Word) : (s.setI a).fb = s.fb := rfl
@[simp] theorem State.setI_status (a : Word) : (s.setI a).status = s.status := rfl
@[simp] theorem State.setI_inputs (a : Word) : (s.setI a).inputs = s.inputs := rfl
@[simp] theorem State.setI_cycle (a : Word) : (s.setI a).cycle = s.cycle := rfl
@[simp] theorem State.setI_reg (a : Word) (j : RegIx) : (s.setI a).reg j = s.reg j := rfl
@[simp] theorem State.setI_input (a : Word) : (s.setI a).input = s.input := rfl

/-! ### `setDt` -/

@[simp] theorem State.setDt_v (b : Byte) : (s.setDt b).v = s.v := rfl
@[simp] theorem State.setDt_i (b : Byte) : (s.setDt b).i = s.i := rfl
@[simp] theorem State.setDt_pc (b : Byte) : (s.setDt b).pc = s.pc := rfl
@[simp] theorem State.setDt_dt (b : Byte) : (s.setDt b).dt = b := rfl
@[simp] theorem State.setDt_st (b : Byte) : (s.setDt b).st = s.st := rfl
@[simp] theorem State.setDt_sp (b : Byte) : (s.setDt b).sp = s.sp := rfl
@[simp] theorem State.setDt_stack (b : Byte) : (s.setDt b).stack = s.stack := rfl
@[simp] theorem State.setDt_mem (b : Byte) : (s.setDt b).mem = s.mem := rfl
@[simp] theorem State.setDt_fb (b : Byte) : (s.setDt b).fb = s.fb := rfl
@[simp] theorem State.setDt_status (b : Byte) : (s.setDt b).status = s.status := rfl
@[simp] theorem State.setDt_inputs (b : Byte) : (s.setDt b).inputs = s.inputs := rfl
@[simp] theorem State.setDt_cycle (b : Byte) : (s.setDt b).cycle = s.cycle := rfl
@[simp] theorem State.setDt_reg (b : Byte) (j : RegIx) : (s.setDt b).reg j = s.reg j := rfl
@[simp] theorem State.setDt_input (b : Byte) : (s.setDt b).input = s.input := rfl
@[simp] theorem State.setDt_ea (b : Byte) (k : Nat) : (s.setDt b).ea k = s.ea k := rfl

/-! ### `setSt` -/

@[simp] theorem State.setSt_v (b : Byte) : (s.setSt b).v = s.v := rfl
@[simp] theorem State.setSt_i (b : Byte) : (s.setSt b).i = s.i := rfl
@[simp] theorem State.setSt_pc (b : Byte) : (s.setSt b).pc = s.pc := rfl
@[simp] theorem State.setSt_dt (b : Byte) : (s.setSt b).dt = s.dt := rfl
@[simp] theorem State.setSt_st (b : Byte) : (s.setSt b).st = b := rfl
@[simp] theorem State.setSt_sp (b : Byte) : (s.setSt b).sp = s.sp := rfl
@[simp] theorem State.setSt_stack (b : Byte) : (s.setSt b).stack = s.stack := rfl
@[simp] theorem State.setSt_mem (b : Byte) : (s.setSt b).mem = s.mem := rfl
@[simp] theorem State.setSt_fb (b : Byte) : (s.setSt b).fb = s.fb := rfl
@[simp] theorem State.setSt_status (b : Byte) : (s.setSt b).status = s.status := rfl
@[simp] theorem State.setSt_inputs (b : Byte) : (s.setSt b).inputs = s.inputs := rfl
@[simp] theorem State.setSt_cycle (b : Byte) : (s.setSt b).cycle = s.cycle := rfl
@[simp] theorem State.setSt_reg (b : Byte) (j : RegIx) : (s.setSt b).reg j = s.reg j := rfl
@[simp] theorem State.setSt_input (b : Byte) : (s.setSt b).input = s.input := rfl
@[simp] theorem State.setSt_ea (b : Byte) (k : Nat) : (s.setSt b).ea k = s.ea k := rfl

/-! ### `setFb` -/

@[simp] theorem State.setFb_v (f : FrameBuffer) : (s.setFb f).v = s.v := rfl
@[simp] theorem State.setFb_i (f : FrameBuffer) : (s.setFb f).i = s.i := rfl
@[simp] theorem State.setFb_pc (f : FrameBuffer) : (s.setFb f).pc = s.pc := rfl
@[simp] theorem State.setFb_dt (f : FrameBuffer) : (s.setFb f).dt = s.dt := rfl
@[simp] theorem State.setFb_st (f : FrameBuffer) : (s.setFb f).st = s.st := rfl
@[simp] theorem State.setFb_sp (f : FrameBuffer) : (s.setFb f).sp = s.sp := rfl
@[simp] theorem State.setFb_stack (f : FrameBuffer) : (s.setFb f).stack = s.stack := rfl
@[simp] theorem State.setFb_mem (f : FrameBuffer) : (s.setFb f).mem = s.mem := rfl
@[simp] theorem State.setFb_fb (f : FrameBuffer) : (s.setFb f).fb = f := rfl
@[simp] theorem State.setFb_status (f : FrameBuffer) : (s.setFb f).status = s.status := rfl
@[simp] theorem State.setFb_inputs (f : FrameBuffer) : (s.setFb f).inputs = s.inputs := rfl
@[simp] theorem State.setFb_cycle (f : FrameBuffer) : (s.setFb f).cycle = s.cycle := rfl
@[simp] theorem State.setFb_reg (f : FrameBuffer) (j : RegIx) : (s.setFb f).reg j = s.reg j := rfl
@[simp] theorem State.setFb_input (f : FrameBuffer) : (s.setFb f).input = s.input := rfl
@[simp] theorem State.setFb_ea (f : FrameBuffer) (k : Nat) : (s.setFb f).ea k = s.ea k := rfl

/-! ### `setMem` -/

@[simp] theorem State.setMem_v (m : Memory) : (s.setMem m).v = s.v := rfl
@[simp] theorem State.setMem_i (m : Memory) : (s.setMem m).i = s.i := rfl
@[simp] theorem State.setMem_pc (m : Memory) : (s.setMem m).pc = s.pc := rfl
@[simp] theorem State.setMem_dt (m : Memory) : (s.setMem m).dt = s.dt := rfl
@[simp] theorem State.setMem_st (m : Memory) : (s.setMem m).st = s.st := rfl
@[simp] theorem State.setMem_sp (m : Memory) : (s.setMem m).sp = s.sp := rfl
@[simp] theorem State.setMem_stack (m : Memory) : (s.setMem m).stack = s.stack := rfl
@[simp] theorem State.setMem_mem (m : Memory) : (s.setMem m).mem = m := rfl
@[simp] theorem State.setMem_fb (m : Memory) : (s.setMem m).fb = s.fb := rfl
@[simp] theorem State.setMem_status (m : Memory) : (s.setMem m).status = s.status := rfl
@[simp] theorem State.setMem_inputs (m : Memory) : (s.setMem m).inputs = s.inputs := rfl
@[simp] theorem State.setMem_cycle (m : Memory) : (s.setMem m).cycle = s.cycle := rfl
@[simp] theorem State.setMem_reg (m : Memory) (j : RegIx) : (s.setMem m).reg j = s.reg j := rfl
@[simp] theorem State.setMem_input (m : Memory) : (s.setMem m).input = s.input := rfl
@[simp] theorem State.setMem_ea (m : Memory) (k : Nat) : (s.setMem m).ea k = s.ea k := rfl

/-! ### `setPc` -/

@[simp] theorem State.setPc_v (a : Word) : (s.setPc a).v = s.v := rfl
@[simp] theorem State.setPc_i (a : Word) : (s.setPc a).i = s.i := rfl
@[simp] theorem State.setPc_pc (a : Word) : (s.setPc a).pc = a := rfl
@[simp] theorem State.setPc_dt (a : Word) : (s.setPc a).dt = s.dt := rfl
@[simp] theorem State.setPc_st (a : Word) : (s.setPc a).st = s.st := rfl
@[simp] theorem State.setPc_sp (a : Word) : (s.setPc a).sp = s.sp := rfl
@[simp] theorem State.setPc_stack (a : Word) : (s.setPc a).stack = s.stack := rfl
@[simp] theorem State.setPc_mem (a : Word) : (s.setPc a).mem = s.mem := rfl
@[simp] theorem State.setPc_fb (a : Word) : (s.setPc a).fb = s.fb := rfl
@[simp] theorem State.setPc_status (a : Word) : (s.setPc a).status = s.status := rfl
@[simp] theorem State.setPc_inputs (a : Word) : (s.setPc a).inputs = s.inputs := rfl
@[simp] theorem State.setPc_cycle (a : Word) : (s.setPc a).cycle = s.cycle := rfl
@[simp] theorem State.setPc_reg (a : Word) (j : RegIx) : (s.setPc a).reg j = s.reg j := rfl
@[simp] theorem State.setPc_input (a : Word) : (s.setPc a).input = s.input := rfl
@[simp] theorem State.setPc_ea (a : Word) (k : Nat) : (s.setPc a).ea k = s.ea k := rfl

/-! ### `advance` -/

@[simp] theorem State.advance_v : (s.advance).v = s.v := rfl
@[simp] theorem State.advance_i : (s.advance).i = s.i := rfl
@[simp] theorem State.advance_pc : (s.advance).pc = s.nextPc := rfl
@[simp] theorem State.advance_dt : (s.advance).dt = s.dt := rfl
@[simp] theorem State.advance_st : (s.advance).st = s.st := rfl
@[simp] theorem State.advance_sp : (s.advance).sp = s.sp := rfl
@[simp] theorem State.advance_stack : (s.advance).stack = s.stack := rfl
@[simp] theorem State.advance_mem : (s.advance).mem = s.mem := rfl
@[simp] theorem State.advance_fb : (s.advance).fb = s.fb := rfl
@[simp] theorem State.advance_status : (s.advance).status = s.status := rfl
@[simp] theorem State.advance_inputs : (s.advance).inputs = s.inputs := rfl
@[simp] theorem State.advance_cycle : (s.advance).cycle = s.cycle := rfl
@[simp] theorem State.advance_reg (j : RegIx) : (s.advance).reg j = s.reg j := rfl
@[simp] theorem State.advance_input : (s.advance).input = s.input := rfl
@[simp] theorem State.advance_ea (k : Nat) : (s.advance).ea k = s.ea k := rfl

/-! ### `skip` -/

@[simp] theorem State.skip_v (c : Bool) : (s.skip c).v = s.v := rfl
@[simp] theorem State.skip_i (c : Bool) : (s.skip c).i = s.i := rfl
@[simp] theorem State.skip_pc (c : Bool) : (s.skip c).pc = if c then s.nextPc + 2 else s.nextPc := rfl
@[simp] theorem State.skip_dt (c : Bool) : (s.skip c).dt = s.dt := rfl
@[simp] theorem State.skip_st (c : Bool) : (s.skip c).st = s.st := rfl
@[simp] theorem State.skip_sp (c : Bool) : (s.skip c).sp = s.sp := rfl
@[simp] theorem State.skip_stack (c : Bool) : (s.skip c).stack = s.stack := rfl
@[simp] theorem State.skip_mem (c : Bool) : (s.skip c).mem = s.mem := rfl
@[simp] theorem State.skip_fb (c : Bool) : (s.skip c).fb = s.fb := rfl
@[simp] theorem State.skip_status (c : Bool) : (s.skip c).status = s.status := rfl
@[simp] theorem State.skip_inputs (c : Bool) : (s.skip c).inputs = s.inputs := rfl
@[simp] theorem State.skip_cycle (c : Bool) : (s.skip c).cycle = s.cycle := rfl
@[simp] theorem State.skip_reg (c : Bool) (j : RegIx) : (s.skip c).reg j = s.reg j := rfl
@[simp] theorem State.skip_input (c : Bool) : (s.skip c).input = s.input := rfl
@[simp] theorem State.skip_ea (c : Bool) (k : Nat) : (s.skip c).ea k = s.ea k := rfl

/-! ### `halt` -/

@[simp] theorem State.halt_v (r : HaltReason) : (s.halt r).v = s.v := rfl
@[simp] theorem State.halt_i (r : HaltReason) : (s.halt r).i = s.i := rfl
@[simp] theorem State.halt_pc (r : HaltReason) : (s.halt r).pc = s.pc := rfl
@[simp] theorem State.halt_dt (r : HaltReason) : (s.halt r).dt = s.dt := rfl
@[simp] theorem State.halt_st (r : HaltReason) : (s.halt r).st = s.st := rfl
@[simp] theorem State.halt_sp (r : HaltReason) : (s.halt r).sp = s.sp := rfl
@[simp] theorem State.halt_stack (r : HaltReason) : (s.halt r).stack = s.stack := rfl
@[simp] theorem State.halt_mem (r : HaltReason) : (s.halt r).mem = s.mem := rfl
@[simp] theorem State.halt_fb (r : HaltReason) : (s.halt r).fb = s.fb := rfl
@[simp] theorem State.halt_status (r : HaltReason) : (s.halt r).status = .halted r := rfl
@[simp] theorem State.halt_inputs (r : HaltReason) : (s.halt r).inputs = s.inputs := rfl
@[simp] theorem State.halt_cycle (r : HaltReason) : (s.halt r).cycle = s.cycle := rfl
@[simp] theorem State.halt_reg (r : HaltReason) (j : RegIx) : (s.halt r).reg j = s.reg j := rfl
@[simp] theorem State.halt_input (r : HaltReason) : (s.halt r).input = s.input := rfl
@[simp] theorem State.halt_ea (r : HaltReason) (k : Nat) : (s.halt r).ea k = s.ea k := rfl

/-! ### `endCycle` -/

@[simp] theorem State.endCycle_v : (s.endCycle).v = s.v := rfl
@[simp] theorem State.endCycle_i : (s.endCycle).i = s.i := rfl
@[simp] theorem State.endCycle_pc : (s.endCycle).pc = s.pc := rfl
@[simp] theorem State.endCycle_dt : (s.endCycle).dt = s.dt := rfl
@[simp] theorem State.endCycle_st : (s.endCycle).st = s.st := rfl
@[simp] theorem State.endCycle_sp : (s.endCycle).sp = s.sp := rfl
@[simp] theorem State.endCycle_stack : (s.endCycle).stack = s.stack := rfl
@[simp] theorem State.endCycle_mem : (s.endCycle).mem = s.mem := rfl
@[simp] theorem State.endCycle_fb : (s.endCycle).fb = s.fb := rfl
@[simp] theorem State.endCycle_status : (s.endCycle).status = s.status := rfl
@[simp] theorem State.endCycle_inputs : (s.endCycle).inputs = s.inputs.tail := rfl
@[simp] theorem State.endCycle_cycle : (s.endCycle).cycle = s.cycle + 1 := rfl
@[simp] theorem State.endCycle_reg (j : RegIx) : (s.endCycle).reg j = s.reg j := rfl
@[simp] theorem State.endCycle_ea (k : Nat) : (s.endCycle).ea k = s.ea k := rfl

end Sys2Proof.Machine
end

