-- ==== Sys2Proof/Laws/Display.lean ====
section
/-! SUPPORT. What one pixel and one sprite row do to a display row (spec/45_draw.md R203, R204). -/

namespace Sys2Proof.Machine

/-- One pixel: its column is toggled by a 1 bit, every other column stays. -/
theorem plot_line (px : Column) (bit : Bool) (l : BitVec 64 × Bool) {q : Nat} (hq : q < 64) :
    (plot px bit l).1.getLsbD q = (l.1.getLsbD q ^^ (bit && decide (q = px.val))) := by
  cases bit <;> simp [plot, hq]

/-- One pixel: the flag is raised when the pixel was on under a 1 bit. -/
theorem plot_collision (px : Column) (bit : Bool) (l : BitVec 64 × Bool) :
    (plot px bit l).2 = (l.2 || (l.1.getLsbD px.val && bit)) := rfl

/-- The first `k` columns of a sprite row have a 1 bit over column `q`. -/
def coversUpTo (vx row : Byte) (k q : Nat) : Bool :=
  (List.range k).any fun c => decide (q = (vx.toNat + c) % 64) && spriteBit row c

/-- The first `k` columns of a sprite row have a 1 bit over a pixel that is on. -/
def hitsUpTo (vx row : Byte) (k : Nat) (line : BitVec 64) : Bool :=
  (List.range k).any fun c => spriteBit row c && line.getLsbD ((vx.toNat + c) % 64)

theorem coversUpTo_iff (vx row : Byte) (k q : Nat) :
    coversUpTo vx row k q = true ↔ ∃ c, c < k ∧ q = (vx.toNat + c) % 64 ∧ spriteBit row c = true := by
  simp [coversUpTo]

theorem hitsUpTo_iff (vx row : Byte) (k : Nat) (line : BitVec 64) :
    hitsUpTo vx row k line = true ↔
      ∃ c, c < k ∧ spriteBit row c = true ∧ line.getLsbD ((vx.toNat + c) % 64) = true := by
  simp [hitsUpTo]

/-- The first `k` columns: the 8 columns are distinct (R203), so each pixel is toggled at most once. -/
theorem plotRow_upTo (vx row : Byte) (l : BitVec 64 × Bool) {k : Nat} (hk : k ≤ 8) :
    let m := (List.range k).foldl (fun l c => plot (Fin.ofNat 64 (vx.toNat + c)) (spriteBit row c) l) l
    (∀ q, q < 64 → m.1.getLsbD q = (l.1.getLsbD q ^^ coversUpTo vx row k q)) ∧
      m.2 = (l.2 || hitsUpTo vx row k l.1) := by
  induction k with
  | zero => simp [coversUpTo, hitsUpTo]
  | succ k ih =>
    obtain ⟨ihl, ihc⟩ := ih (by omega)
    have fresh : coversUpTo vx row k ((vx.toNat + k) % 64) = false := by
      rw [← Bool.not_eq_true, coversUpTo_iff]
      rintro ⟨c, hc, he, -⟩
      omega
    simp only [List.range_succ, List.foldl_append, List.foldl_cons, List.foldl_nil, coversUpTo, hitsUpTo,
      List.any_append, List.any_cons, List.any_nil, Bool.or_false]
    refine ⟨fun q hq => ?_, ?_⟩
    · rw [plot_line _ _ _ hq, ihl q hq]
      by_cases hqk : q = (vx.toNat + k) % 64
      · subst hqk
        rw [fresh]
        simp only [coversUpTo] at fresh
        simp [fresh, Fin.ofNat]
      · simp [hqk, Fin.ofNat, coversUpTo]
    · rw [plot_collision, ihc, ihl _ (Fin.is_lt _)]
      simp only [Fin.ofNat, fresh, Bool.xor_false, hitsUpTo, Bool.or_assoc]
      rw [Bool.and_comm (spriteBit row k)]

/-- One sprite row over the display row it lands on: exactly the columns under a 1 bit are toggled, and the flag is
raised when one of them was on. -/
theorem plotRow_spec (vx row : Byte) (l : BitVec 64 × Bool) :
    (∀ q, q < 64 → (plotRow vx row l).1.getLsbD q = (l.1.getLsbD q ^^ coversUpTo vx row 8 q)) ∧
      (plotRow vx row l).2 = (l.2 || hitsUpTo vx row 8 l.1) :=
  plotRow_upTo vx row l (Nat.le_refl 8)

/-- Sprite rows, the first of them row `r` of the sprite, have a 1 bit over pixel (`px`, `py`) (R203, R206). -/
def Covers (vx vy : Byte) (r : Nat) (rows : List Byte) (py : Row) (px : Column) : Prop :=
  ∃ (k c : Nat) (hk : k < rows.length), c < 8 ∧ py.val = (vy.toNat + (r + k)) % 32 ∧
    px.val = (vx.toNat + c) % 64 ∧ spriteBit rows[k] c = true

theorem not_covers_nil (vx vy : Byte) (r : Nat) (py : Row) (px : Column) : ¬ Covers vx vy r [] py px := by
  simp [Covers]

/-- The first row covers columns of its own display row, the others the rest. -/
theorem covers_cons (vx vy row : Byte) (r : Nat) (rows : List Byte) (py : Row) (px : Column) :
    Covers vx vy r (row :: rows) py px ↔
      (py = Fin.ofNat 32 (vy.toNat + r) ∧ coversUpTo vx row 8 px.val = true) ∨ Covers vx vy (r + 1) rows py px := by
  constructor
  · rintro ⟨k, c, hk, hc, hy, hx, hb⟩
    cases k with
    | zero => exact .inl ⟨Fin.ext (by simpa using hy), (coversUpTo_iff _ _ _ _).2 ⟨c, hc, hx, hb⟩⟩
    | succ k => exact .inr ⟨k, c, by simpa using hk, hc, by rw [hy]; congr 1; omega, hx, hb⟩
  · rintro (⟨rfl, h⟩ | ⟨k, c, hk, hc, hy, hx, hb⟩)
    · obtain ⟨c, hc, hx, hb⟩ := (coversUpTo_iff _ _ _ _).1 h
      exact ⟨0, c, by simp, hc, by simp, hx, hb⟩
    · exact ⟨k + 1, c, by simpa using hk, hc, by rw [hy]; congr 1; omega, hx, hb⟩

/-- At most 32 rows land on distinct display rows (R203). -/
theorem not_covers_earlier (vx vy : Byte) {r : Nat} {rows : List Byte} (hl : rows.length < 32) (px : Column) :
    ¬ Covers vx vy (r + 1) rows (Fin.ofNat 32 (vy.toNat + r)) px := by
  rintro ⟨k, c, hk, -, hy, -⟩
  simp only [Fin.ofNat] at hy
  omega

theorem FrameBuffer.pixel_set (f : FrameBuffer) (q py : Row) (line : BitVec 64) (px : Column) :
    FrameBuffer.pixel (f.set q.val line) py px = if py = q then line.getLsbD px.val else f.pixel py px := by
  simp only [FrameBuffer.pixel]
  by_cases h : py = q
  · rw [if_pos h, h, Vector.getElem_set_self]
  · rw [if_neg h, Vector.getElem_set_ne]
    exact fun h' => h (Fin.ext h'.symm)

/-- All that drawing does: exactly the covered pixels are toggled, and the flag is raised when one of them was on. -/
theorem drawFrom_spec (vx vy : Byte) (rows : List Byte) (r : Nat) (f : FrameBuffer) (b : Bool)
    (hl : rows.length ≤ 32) :
    (∀ py px, (Covers vx vy r rows py px → (drawFrom vx vy r rows (f, b)).1.pixel py px = !f.pixel py px) ∧
      (¬ Covers vx vy r rows py px → (drawFrom vx vy r rows (f, b)).1.pixel py px = f.pixel py px)) ∧
    ((drawFrom vx vy r rows (f, b)).2 = true ↔
      b = true ∨ ∃ py px, Covers vx vy r rows py px ∧ f.pixel py px = true) := by
  induction rows generalizing r f b with
  | nil => simp [drawFrom, not_covers_nil]
  | cons row rows ih =>
    simp only [List.length_cons] at hl
    simp only [drawFrom, covers_cons]
    have fresh := not_covers_earlier vx vy (r := r) (rows := rows) (by omega)
    set q : Row := Fin.ofNat 32 (vy.toNat + r)
    obtain ⟨lineSpec, hitSpec⟩ := plotRow_spec vx row (f[q.val], b)
    set line := plotRow vx row (f[q.val], b)
    obtain ⟨pixels, flagged⟩ := ih (r + 1) (f.set q.val line.1) line.2 (by omega)
    refine ⟨fun py px => ?_, ?_⟩
    · have hp := pixels py px
      rw [FrameBuffer.pixel_set] at hp
      by_cases h : py = q
      · subst h
        rw [if_pos rfl, lineSpec _ px.isLt] at hp
        rw [hp.2 (fresh px)]
        rw [or_iff_left (fresh px), and_iff_right rfl]
        constructor <;> intro hc <;> simp [hc, FrameBuffer.pixel]
      · rw [if_neg h] at hp
        rw [or_iff_right fun hc => h hc.1]
        exact hp
    · rw [flagged, hitSpec, Bool.or_eq_true, hitsUpTo_iff]
      constructor
      · rintro ((h | ⟨c, hc, hb, hon⟩) | ⟨py, px, hcov, hon⟩)
        · exact .inl h
        · exact .inr ⟨q, Fin.ofNat 64 (vx.toNat + c),
            .inl ⟨rfl, (coversUpTo_iff _ _ _ _).2 ⟨c, hc, rfl, hb⟩⟩, hon⟩
        · have h : py ≠ q := fun h => fresh px (h ▸ hcov)
          rw [FrameBuffer.pixel_set, if_neg h] at hon
          exact .inr ⟨py, px, .inr hcov, hon⟩
      · rintro (h | ⟨py, px, ⟨rfl, hcov⟩ | hcov, hon⟩)
        · exact .inl (.inl h)
        · obtain ⟨c, hc, hx, hb⟩ := (coversUpTo_iff _ _ _ _).1 hcov
          exact .inl (.inr ⟨c, hc, hb, hx ▸ hon⟩)
        · have h : py ≠ q := fun h => fresh px (h ▸ hcov)
          exact .inr ⟨py, px, hcov, by rw [FrameBuffer.pixel_set, if_neg h]; exact hon⟩

end Sys2Proof.Machine
end

