-- ==== Sys2Proof/Laws/Encoding.lean ====
section
/-! SUPPORT. The encoder's three formats as numbers, and their fields read back (spec/30_encoding.md R71, R72). -/

namespace Sys2Proof

theorem encNnn_toNat (f : BitVec 4) (a : BitVec 12) : (encNnn f a).toNat = f.toNat * 4096 + a.toNat := by
  rw [encNnn, BitVec.toNat_append, ← Nat.shiftLeft_add_eq_or_of_lt a.isLt, Nat.shiftLeft_eq]

theorem encXkk_toNat (f : BitVec 4) (x : RegIx) (kk : Byte) :
    (encXkk f x kk).toNat = f.toNat * 4096 + x.val * 256 + kk.toNat := by
  rw [encXkk, BitVec.toNat_append, ← Nat.shiftLeft_add_eq_or_of_lt kk.isLt, BitVec.toNat_append,
    ← Nat.shiftLeft_add_eq_or_of_lt (BitVec.ofFin x : BitVec 4).isLt]
  simp only [Nat.shiftLeft_eq, BitVec.toNat_ofFin]
  omega

theorem encXyn_toNat (f : BitVec 4) (x y : RegIx) (n : BitVec 4) :
    (encXyn f x y n).toNat = f.toNat * 4096 + x.val * 256 + y.val * 16 + n.toNat := by
  rw [encXyn, BitVec.toNat_append, ← Nat.shiftLeft_add_eq_or_of_lt n.isLt, BitVec.toNat_append,
    ← Nat.shiftLeft_add_eq_or_of_lt (BitVec.ofFin y : BitVec 4).isLt, BitVec.toNat_append,
    ← Nat.shiftLeft_add_eq_or_of_lt (BitVec.ofFin x : BitVec 4).isLt]
  simp only [Nat.shiftLeft_eq, BitVec.toNat_ofFin]
  omega

/-! ### Fields as numbers -/

theorem fieldFam_toNat (w : Word) : (fieldFam w).toNat = w.toNat / 4096 := by
  have := w.isLt
  simp only [fieldFam, BitVec.extractLsb'_toNat, Nat.shiftRight_eq_div_pow]
  omega

theorem fieldX_val (w : Word) : (fieldX w).val = w.toNat / 256 % 16 := by
  simp only [fieldX, BitVec.val_toFin, BitVec.extractLsb'_toNat, Nat.shiftRight_eq_div_pow]

theorem fieldY_val (w : Word) : (fieldY w).val = w.toNat / 16 % 16 := by
  simp only [fieldY, BitVec.val_toFin, BitVec.extractLsb'_toNat, Nat.shiftRight_eq_div_pow]

theorem fieldN_toNat (w : Word) : (fieldN w).toNat = w.toNat % 16 := by
  simp [fieldN]

theorem fieldKk_toNat (w : Word) : (fieldKk w).toNat = w.toNat % 256 := by
  simp [fieldKk]

theorem fieldNnn_toNat (w : Word) : (fieldNnn w).toNat = w.toNat % 4096 := by
  simp [fieldNnn]

/-! ### Fields of the formats -/

@[simp] theorem fieldFam_encNnn (f : BitVec 4) (a : BitVec 12) : fieldFam (encNnn f a) = f := by
  apply BitVec.eq_of_toNat_eq
  have := a.isLt
  rw [fieldFam_toNat, encNnn_toNat]
  omega

@[simp] theorem fieldNnn_encNnn (f : BitVec 4) (a : BitVec 12) : fieldNnn (encNnn f a) = a := by
  apply BitVec.eq_of_toNat_eq
  have := a.isLt
  rw [fieldNnn_toNat, encNnn_toNat]
  omega

@[simp] theorem fieldFam_encXkk (f : BitVec 4) (x : RegIx) (kk : Byte) : fieldFam (encXkk f x kk) = f := by
  apply BitVec.eq_of_toNat_eq
  have := kk.isLt
  rw [fieldFam_toNat, encXkk_toNat]
  omega

@[simp] theorem fieldX_encXkk (f : BitVec 4) (x : RegIx) (kk : Byte) : fieldX (encXkk f x kk) = x := by
  apply Fin.ext
  have := kk.isLt
  rw [fieldX_val, encXkk_toNat]
  omega

@[simp] theorem fieldKk_encXkk (f : BitVec 4) (x : RegIx) (kk : Byte) : fieldKk (encXkk f x kk) = kk := by
  apply BitVec.eq_of_toNat_eq
  have := kk.isLt
  rw [fieldKk_toNat, encXkk_toNat]
  omega

@[simp] theorem fieldFam_encXyn (f : BitVec 4) (x y : RegIx) (n : BitVec 4) : fieldFam (encXyn f x y n) = f := by
  apply BitVec.eq_of_toNat_eq
  have := n.isLt
  rw [fieldFam_toNat, encXyn_toNat]
  omega

@[simp] theorem fieldX_encXyn (f : BitVec 4) (x y : RegIx) (n : BitVec 4) : fieldX (encXyn f x y n) = x := by
  apply Fin.ext
  have := n.isLt
  rw [fieldX_val, encXyn_toNat]
  omega

@[simp] theorem fieldY_encXyn (f : BitVec 4) (x y : RegIx) (n : BitVec 4) : fieldY (encXyn f x y n) = y := by
  apply Fin.ext
  have := n.isLt
  rw [fieldY_val, encXyn_toNat]
  omega

@[simp] theorem fieldN_encXyn (f : BitVec 4) (x y : RegIx) (n : BitVec 4) : fieldN (encXyn f x y n) = n := by
  apply BitVec.eq_of_toNat_eq
  have := n.isLt
  rw [fieldN_toNat, encXyn_toNat]
  omega

/-- A word is its two bytes in memory order (R53). -/
theorem opcodeOf_bytes (w : Word) : opcodeOf (w.extractLsb' 8 8) (w.extractLsb' 0 8) = w := by
  apply BitVec.eq_of_toNat_eq
  have := w.isLt
  rw [opcodeOf, BitVec.toNat_append, ← Nat.shiftLeft_add_eq_or_of_lt (w.extractLsb' 0 8).isLt]
  simp only [BitVec.extractLsb'_toNat, Nat.shiftLeft_eq, Nat.shiftRight_eq_div_pow]
  omega

end Sys2Proof
end

