-- ==== Sys2Proof/Laws/Memory.lean ====
section
/-! SUPPORT. Memory: read after write, the frame of a write, and that every memory operation keeps the canonical form
(spec/20_memory.md R52, R57). -/

namespace Sys2Proof.Machine

/-! ### The canonical form -/

theorem Memory.wfFrom_mono {m : Memory} {lo lo' : Nat} (hl : lo' ≤ lo) (h : Memory.wfFrom lo m = true) :
    Memory.wfFrom lo' m = true := by
  cases m with
  | nil => rfl
  | cons c m =>
    simp only [Memory.wfFrom, Bool.and_eq_true, decide_eq_true_eq] at h ⊢
    exact ⟨⟨⟨by omega, h.1.1.2⟩, h.1.2⟩, h.2⟩

/-- An address below a canonical list is not listed. -/
theorem Memory.read_below {m : Memory} {lo a : Nat} (h : Memory.wfFrom lo m = true) (ha : a < lo) :
    Memory.read m a = Memory.unlisted a := by
  induction m generalizing lo with
  | nil => rfl
  | cons c m ih =>
    simp only [Memory.wfFrom, Bool.and_eq_true, decide_eq_true_eq] at h
    rw [Memory.read, if_neg (by omega), ih h.2 (by omega)]

/-! ### One byte -/

/-- A write leaves every other address alone. -/
theorem Memory.read_write_other (m : Memory) {a c : Nat} (b : Byte) (h : c ≠ a) :
    Memory.read (Memory.write m a b) c = Memory.read m c := by
  induction m with
  | nil => by_cases hb : b = Memory.unlisted a <;> simp [Memory.write, Memory.read, hb, h]
  | cons p m ih =>
    simp only [Memory.write]
    split_ifs <;> simp_all [Memory.read]

theorem Memory.read_writeFrom_same {m : Memory} {lo a : Nat} (b : Byte) (hm : Memory.wfFrom lo m = true) :
    Memory.read (Memory.write m a b) a = b := by
  induction m generalizing lo with
  | nil => by_cases hb : b = Memory.unlisted a <;> simp [Memory.write, Memory.read, hb]
  | cons p m ih =>
    simp only [Memory.wfFrom, Bool.and_eq_true, decide_eq_true_eq] at hm
    simp only [Memory.write]
    split_ifs with h1 h2 h3 h4
    · rw [Memory.read, if_neg (by omega), Memory.read_below hm.2 (by omega), h2]
    · simp [Memory.read]
    · rw [Memory.read_below hm.2 (by omega), h4]
    · simp [Memory.read]
    · rw [Memory.read, if_neg (by omega), ih hm.2]

/-- A read after a write to the same address gives the value written (R57). -/
theorem Memory.read_write_same {m : Memory} (a : Nat) (b : Byte) (hm : m.wf = true) :
    Memory.read (Memory.write m a b) a = b :=
  Memory.read_writeFrom_same b hm

theorem Memory.wfFrom_write {m : Memory} {lo a : Nat} (b : Byte) (hm : Memory.wfFrom lo m = true) (hl : lo ≤ a)
    (ha : a < Config.memSize) : Memory.wfFrom lo (Memory.write m a b) = true := by
  induction m generalizing lo with
  | nil =>
    by_cases hb : b = Memory.unlisted a
    · simp [Memory.write, Memory.wfFrom, hb]
    · simp [Memory.write, Memory.wfFrom, hb, hl, ha]
  | cons p m ih =>
    have hp := hm
    simp only [Memory.wfFrom, Bool.and_eq_true, decide_eq_true_eq] at hp
    simp only [Memory.write]
    split_ifs with h1 h2 h3 h4
    · exact hm
    · simp only [Memory.wfFrom, Bool.and_eq_true, decide_eq_true_eq]
      exact ⟨⟨⟨hl, ha⟩, by simpa using h2⟩, ⟨⟨by omega, hp.1.1.2⟩, hp.1.2⟩, hp.2⟩
    · exact Memory.wfFrom_mono (by omega) hp.2
    · simp only [Memory.wfFrom, Bool.and_eq_true, decide_eq_true_eq]
      exact ⟨⟨⟨hl, ha⟩, by simpa using h4⟩, by simpa [h3] using hp.2⟩
    · simp only [Memory.wfFrom, Bool.and_eq_true, decide_eq_true_eq]
      exact ⟨hp.1, ih hp.2 (by omega)⟩

/-- Writing a byte of `MEM` keeps the canonical form. -/
theorem Memory.wf_write {m : Memory} {a : Nat} (b : Byte) (hm : m.wf = true) (ha : a < Config.memSize) :
    (Memory.write m a b).wf = true :=
  Memory.wfFrom_write b hm (Nat.zero_le a) ha

/-! ### Sequences of bytes -/

theorem Memory.wf_writeList {m : Memory} {a : Nat} (bs : List Byte) (hm : m.wf = true)
    (ha : a + bs.length ≤ Config.memSize) : (Memory.writeList m a bs).wf = true := by
  induction bs generalizing m a with
  | nil => exact hm
  | cons b bs ih =>
    simp only [List.length_cons] at ha
    exact ih (Memory.wf_write b hm (by omega)) (by omega)

/-- Writing a sequence leaves every address outside it alone. -/
theorem Memory.read_writeList_outside (m : Memory) {a c : Nat} (bs : List Byte) (h : c < a ∨ a + bs.length ≤ c) :
    Memory.read (Memory.writeList m a bs) c = Memory.read m c := by
  induction bs generalizing m a with
  | nil => rfl
  | cons b bs ih =>
    simp only [List.length_cons] at h
    rw [Memory.writeList, ih _ (by omega), Memory.read_write_other _ _ (by omega)]

/-- Byte `k` of a written sequence reads back. -/
theorem Memory.read_writeList_inside {m : Memory} {a : Nat} (bs : List Byte) {k : Nat} (hk : k < bs.length)
    (hm : m.wf = true) (ha : a + bs.length ≤ Config.memSize) :
    Memory.read (Memory.writeList m a bs) (a + k) = bs[k] := by
  induction bs generalizing m a k with
  | nil => simp at hk
  | cons b bs ih =>
    simp only [List.length_cons] at ha hk
    cases k with
    | zero =>
      rw [Memory.writeList, Memory.read_writeList_outside _ _ (by omega)]
      simpa using Memory.read_write_same a b hm
    | succ k =>
      have := ih (m := Memory.write m a b) (a := a + 1) (k := k) (by omega) (Memory.wf_write b hm (by omega)) (by omega)
      simpa [Memory.writeList, Nat.add_assoc, Nat.add_comm 1 k] using this

/-- Every byte after a store of a sequence: the stored one where the sequence reaches, else the one from before. -/
theorem Memory.read_writeList {m : Memory} {a : Nat} (bs : List Byte) (hm : m.wf = true)
    (ha : a + bs.length ≤ Config.memSize) (c : Nat) :
    Memory.read (Memory.writeList m a bs) c = if a ≤ c then bs.getD (c - a) (Memory.read m c) else Memory.read m c := by
  by_cases h : a ≤ c ∧ c < a + bs.length
  · obtain ⟨k, rfl⟩ := Nat.exists_eq_add_of_le h.1
    have hk : k < bs.length := by omega
    simp [Memory.read_writeList_inside bs hk hm ha, List.getD_eq_getElem?_getD, hk]
  · rw [Memory.read_writeList_outside m bs (by omega)]
    split
    · rw [List.getD_eq_getElem?_getD, List.getElem?_eq_none (by omega)]; rfl
    · rfl

@[simp] theorem Memory.length_readList (m : Memory) (a n : Nat) : (m.readList a n).length = n := by
  induction n generalizing a with
  | zero => rfl
  | succ n ih => simp [Memory.readList, ih]

/-- Byte `k` of a read sequence is the byte at `a + k` (R52). -/
theorem Memory.getElem_readList (m : Memory) (a n : Nat) {k : Nat} (hk : k < (m.readList a n).length) :
    (m.readList a n)[k] = m.read (a + k) := by
  induction n generalizing a k with
  | zero => simp at hk
  | succ n ih =>
    cases k with
    | zero => rfl
    | succ k =>
      simp only [Memory.readList, List.getElem_cons_succ]
      rw [ih (a + 1) (by simpa using hk)]
      congr 1
      omega

/-! ### The primitives (R52) -/

theorem inMemory_iff (a n : Nat) : inMemory a n = true ↔ n = 0 ∨ a + n ≤ Config.memSize := by
  simp only [inMemory, Config.memSize, Bool.or_eq_true, beq_iff_eq, decide_eq_true_eq]
  omega

/-- All that `MemRead` can do. -/
theorem State.memRead_cases (s : State) (a n : Nat) :
    (inMemory a n = true ∧ s.memRead a n = .ok (s.mem.readList a n)) ∨
      (inMemory a n = false ∧ s.memRead a n = .error .addressingFault) := by
  cases h : inMemory a n <;> simp [State.memRead, h]

/-- All that `MemWrite` can do: the state but for its memory is as it was. -/
theorem State.memWrite_cases (s : State) (a : Nat) (bs : List Byte) :
    (inMemory a bs.length = true ∧ s.memWrite a bs = .ok (s.setMem (s.mem.writeList a bs))) ∨
      (inMemory a bs.length = false ∧ s.memWrite a bs = .error .addressingFault) := by
  cases h : inMemory a bs.length <;> simp [State.memWrite, h]

/-- `MemWrite` keeps the canonical form. -/
theorem State.memWrite_wf {s t : State} {a : Nat} {bs : List Byte} (hs : s.mem.wf = true)
    (h : s.memWrite a bs = .ok t) : t.mem.wf = true := by
  obtain ⟨hin, he⟩ | ⟨-, he⟩ := s.memWrite_cases a bs
  · obtain rfl : _ = t := by simpa [he] using h
    obtain hn | hn := (inMemory_iff _ _).1 hin
    · obtain rfl := List.length_eq_zero_iff.1 hn
      exact hs
    · exact Memory.wf_writeList bs hs hn
  · simp [he] at h

theorem Memory.wf_reset : State.reset.mem.wf = true := rfl

/-- An address at or above `0x200` that the memory does not list reads as zero (R38). -/
theorem Memory.unlisted_high {a : Nat} (h : 0x200 ≤ a) : Memory.unlisted a = 0 := by
  simp [Memory.unlisted, Nat.not_lt.2 h]

end Sys2Proof.Machine
end

