-- ==== Sys2Proof/Laws/Registers.lean ====
section
/-! SUPPORT. Registers: read after write (spec/10_state.md R21), and the flag written last (spec/42_alu.md R151). -/

namespace Sys2Proof.Machine

theorem State.reg_setReg (s : State) (x j : RegIx) (b : Byte) :
    (s.setReg x b).reg j = if j = x then b else s.reg j := by
  simp only [State.reg, State.setReg_v, Vector.getElem_set, Fin.ext_iff]
  split <;> split <;> first | rfl | omega

@[simp] theorem State.reg_setReg_same (s : State) (x : RegIx) (b : Byte) : (s.setReg x b).reg x = b := by
  simp [State.reg_setReg]

theorem State.reg_setReg_other (s : State) {x j : RegIx} (b : Byte) (h : j ≠ x) :
    (s.setReg x b).reg j = s.reg j := by
  simp [State.reg_setReg, h]

theorem State.reg_setRegFlag (s : State) (x j : RegIx) (b f : Byte) :
    (s.setRegFlag x b f).reg j = if j = regF then f else if j = x then b else s.reg j := by
  simp only [State.setRegFlag, State.reg_setReg]

theorem State.reg_setRegs (s : State) (bs : List Byte) (j : RegIx) :
    (s.setRegs bs).reg j = bs.getD j.val (s.reg j) := by
  simp [State.reg]

end Sys2Proof.Machine
end

