-- ==== Sys2Proof/Laws/Stack.lean ====
section
/-! SUPPORT. All that the stack primitives of spec/10_state.md R29 can do. -/

namespace Sys2Proof.Machine

theorem State.push_ok (s : State) (a : Word) (h : s.sp.val < 16) :
    s.push a = .ok { s with stack := s.stack.set s.sp.val a, sp := ⟨s.sp.val + 1, by omega⟩ } := by
  simp [State.push, h]

theorem State.push_full (s : State) (a : Word) (h : s.sp.val = 16) : s.push a = .error .stackOverflow := by
  simp [State.push, h]

theorem State.pop_ok (s : State) (h : s.sp.val ≠ 0) :
    s.pop = .ok (s.stack[s.sp.val - 1], { s with sp := ⟨s.sp.val - 1, by omega⟩ }) := by
  simp [State.pop, h]

theorem State.pop_empty (s : State) (h : s.sp.val = 0) : s.pop = .error .stackUnderflow := by
  simp [State.pop, h]

end Sys2Proof.Machine
end

