-- ==== Sys2Proof/Laws/Step.lean ====
section
/-! SUPPORT. What a cycle step can do, said once: committing an effect, fetching, and the inversion of `step`
(spec/40_flow_control.md R100). -/

namespace Sys2Proof.Machine

@[simp] theorem State.commit_ok (s t : State) : s.commit (.ok t) = .next t := rfl

@[simp] theorem State.commit_error (s : State) (r : HaltReason) : s.commit (.error r) = .next (s.halt r) := rfl

@[simp] theorem State.commit_map_ok {α : Type} (s : State) (f : α → State) (a : α) :
    s.commit (Except.map f (.ok a)) = .next (f a) := rfl

@[simp] theorem State.commit_map_error {α : Type} (s : State) (f : α → State) (r : HaltReason) :
    s.commit (Except.map f (.error r)) = .next (s.halt r) := rfl

theorem State.commit_next (s : State) (e : Effect) : ∃ t, s.commit e = .next t := ⟨_, rfl⟩

/-- An instruction always answers a next state. -/
theorem exec_next (i : Instr) (s : State) : ∃ t, exec i s = .next t := by
  cases i <;> exact ⟨_, rfl⟩

theorem fetchable_iff (a : Word) :
    fetchable a = true ↔ a.toNat % 2 = 0 ∧ 0x200 ≤ a.toNat ∧ a.toNat ≤ 0xFFE := by
  simp only [fetchable, Bool.and_eq_true, decide_eq_true_eq, and_assoc]
  simp only [Config.pcLo, Config.pcHi]

/-- All that a fetch can do (R56). -/
theorem State.fetch_cases (s : State) :
    (fetchable s.pc = true ∧
        s.fetch = .ok (opcodeOf (s.mem.read s.pc.toNat) (s.mem.read (s.pc.toNat + 1)))) ∨
      (fetchable s.pc = false ∧ s.fetch = .error .addressingFault) := by
  cases h : fetchable s.pc <;> simp [State.fetch, h]

theorem step_halted {s : State} {r : HaltReason} (h : s.status = .halted r) : step s = .next s := by
  simp [step, h]

theorem step_fetch_fault {s : State} {r : HaltReason} (h : s.status = .running) (hf : s.fetch = .error r) :
    step s = .next (s.halt r).endCycle := by
  simp [step, h, hf]

theorem step_runs {s t : State} {w : Word} (h : s.status = .running) (hf : s.fetch = .ok w)
    (he : exec (decode w) s = .next t) : step s = .next t.endCycle := by
  simp [step, h, hf, he]

/-- All that a cycle step can do. -/
theorem step_cases {s s' : State} (h : step s = .next s') :
    (∃ r, s.status = .halted r ∧ s' = s) ∨
      (s.status = .running ∧ fetchable s.pc = false ∧ s' = (s.halt .addressingFault).endCycle) ∨
      (∃ w t, s.status = .running ∧ fetchable s.pc = true ∧ s.fetch = .ok w ∧ exec (decode w) s = .next t ∧
        s' = t.endCycle) := by
  cases hs : s.status with
  | halted r =>
    rw [step_halted hs] at h
    exact .inl ⟨r, rfl, by simpa using h.symm⟩
  | running =>
    obtain ⟨hf, he⟩ | ⟨hf, he⟩ := s.fetch_cases
    · obtain ⟨t, ht⟩ := exec_next (decode _) s
      rw [step_runs hs he ht] at h
      exact .inr (.inr ⟨_, t, rfl, hf, he, ht, by simpa using h.symm⟩)
    · rw [step_fetch_fault hs he] at h
      exact .inr (.inl ⟨rfl, hf, by simpa using h.symm⟩)

end Sys2Proof.Machine
end

