-- ==== Sys2Proof/Laws/Frames.lean ====
section
/-! SUPPORT. The frames of the shared updates (Sys2Proof/Safety.lean), each said once. -/

namespace Sys2Proof.Machine

@[simp] theorem regsKept_refl (may : RegIx → Bool) (s : State) : RegsKept may s s := fun _ _ => rfl

@[simp] theorem stackKept_refl (s : State) : StackKept s s := ⟨rfl, fun _ => rfl⟩

@[simp] theorem memoryKept_refl (s : State) : MemoryKept s s := fun _ => rfl

@[simp] theorem displayKept_refl (s : State) : DisplayKept s s := fun _ _ => rfl

@[simp] theorem timersKept_refl (s : State) : TimersKept s s := ⟨rfl, rfl⟩

@[simp] theorem controlKept_refl (s : State) : ControlKept s s := ⟨rfl, rfl, rfl⟩

/-- Equal register files give the register part of any frame. -/
theorem regsKept_of_eq {may : RegIx → Bool} {s t : State} (h : t.v = s.v) : RegsKept may s t := by
  intro j _
  simp [State.reg, h]

theorem stackKept_of_eq {s t : State} (h : t.sp = s.sp) (h' : t.stack = s.stack) : StackKept s t :=
  ⟨h, fun _ => by simp [h']⟩

theorem memoryKept_of_eq {s t : State} (h : t.mem = s.mem) : MemoryKept s t := fun _ => by rw [h]

theorem displayKept_of_eq {s t : State} (h : t.fb = s.fb) : DisplayKept s t := fun _ _ => by rw [h]

/-- Assigning `PC` changes no register and nothing else. -/
theorem onlyPc_setPc (s : State) (a : Word) : OnlyRegsAndPc noReg s (s.setPc a) :=
  ⟨regsKept_of_eq rfl, rfl, ⟨rfl, rfl⟩, stackKept_of_eq rfl rfl, memoryKept_of_eq rfl, displayKept_of_eq rfl, rfl, rfl, rfl⟩

theorem onlyPc_advance (s : State) : OnlyRegsAndPc noReg s s.advance := onlyPc_setPc s _

theorem onlyPc_skip (s : State) (c : Bool) : OnlyRegsAndPc noReg s (s.skip c) := onlyPc_setPc s _

/-- Writing one register and going on changes that register and nothing else. -/
theorem onlyReg_setReg (s : State) (x : RegIx) (b : Byte) : OnlyRegsAndPc (oneReg x) s (s.setReg x b).advance := by
  refine ⟨fun j hj => ?_, rfl, ⟨rfl, rfl⟩, stackKept_of_eq rfl rfl, memoryKept_of_eq rfl, displayKept_of_eq rfl, rfl, rfl, rfl⟩
  simp only [State.advance_reg]
  exact State.reg_setReg_other s b (by simpa [oneReg] using hj)

/-- Writing a result and the flag changes the two registers and nothing else. -/
theorem onlyReg_setRegFlag (s : State) (x : RegIx) (b f : Byte) :
    OnlyRegsAndPc (oneRegAndFlag x) s (s.setRegFlag x b f).advance := by
  refine ⟨fun j hj => ?_, rfl, ⟨rfl, rfl⟩, stackKept_of_eq rfl rfl, memoryKept_of_eq rfl, displayKept_of_eq rfl, rfl, rfl, rfl⟩
  have hj' : j ≠ x ∧ j ≠ regF := by simpa [oneRegAndFlag] using hj
  simp [State.reg_setRegFlag, hj'.1, hj'.2]

end Sys2Proof.Machine
end

