-- ==== Sys2Proof/Laws/Meanings.lean ====
section
/-! SUPPORT. The instructions that can fault, one equation for each of their two cases, with the bounds as the rules
write them (spec/60_exceptions.md R221 to R223). Every other meaning is one committed update and needs none. -/

namespace Sys2Proof.Machine

@[simp] theorem State.ea_eq (s : State) (k : Nat) : s.ea k = s.i.toNat + k := rfl

@[simp] theorem State.length_regsTo (s : State) (x : RegIx) : (s.regsTo x).length = x.val + 1 := by
  simp [State.regsTo]

theorem State.getElem_regsTo (s : State) (x k : RegIx) (h : k.val < (s.regsTo x).length) :
    (s.regsTo x)[k.val] = s.reg k := by
  simp [State.regsTo, State.reg]

@[simp] theorem length_bcdDigits (b : Byte) : (bcdDigits b).length = 3 := rfl

/-! ### The stack instructions -/

theorem execCall_ok (nnn : BitVec 12) (s : State) (h : s.sp.val < 16) :
    execCall nnn s = .next (State.setPc { s with
      stack := s.stack.set s.sp.val s.nextPc, sp := ⟨s.sp.val + 1, by omega⟩ } (addrOf nnn)) := by
  simp [execCall, s.push_ok _ h]

theorem execCall_fault (nnn : BitVec 12) (s : State) (h : s.sp.val = 16) :
    execCall nnn s = .next (s.halt .stackOverflow) := by
  simp [execCall, s.push_full _ h]

theorem execRet_ok (s : State) (h : s.sp.val ≠ 0) :
    execRet s = .next (State.setPc { s with sp := ⟨s.sp.val - 1, by omega⟩ } s.stack[s.sp.val - 1]) := by
  simp [execRet, s.pop_ok h]

theorem execRet_fault (s : State) (h : s.sp.val = 0) : execRet s = .next (s.halt .stackUnderflow) := by
  simp [execRet, s.pop_empty h]

/-! ### The `I`-relative instructions -/

theorem State.memWrite_ok (s : State) {a : Nat} {bs : List Byte} (h : a + bs.length ≤ 4096) :
    s.memWrite a bs = .ok (s.setMem (s.mem.writeList a bs)) := by
  have : inMemory a bs.length = true := (inMemory_iff _ _).2 (.inr h)
  simp [State.memWrite, this]

theorem State.memWrite_fault (s : State) {a : Nat} {bs : List Byte} (h0 : bs.length ≠ 0) (h : 4096 < a + bs.length) :
    s.memWrite a bs = .error .addressingFault := by
  have : ¬ inMemory a bs.length = true := by rw [inMemory_iff, Config.memSize]; omega
  simp [State.memWrite, this]

theorem State.memRead_ok (s : State) {a n : Nat} (h : n = 0 ∨ a + n ≤ 4096) :
    s.memRead a n = .ok (s.mem.readList a n) := by
  have : inMemory a n = true := (inMemory_iff _ _).2 h
  simp [State.memRead, this]

theorem State.memRead_fault (s : State) {a n : Nat} (h0 : n ≠ 0) (h : 4096 < a + n) :
    s.memRead a n = .error .addressingFault := by
  have : ¬ inMemory a n = true := by rw [inMemory_iff, Config.memSize]; omega
  simp [State.memRead, this]

theorem execLdB_ok (x : RegIx) (s : State) (h : s.i.toNat + 2 ≤ 0xFFF) :
    execLdB x s = .next (s.setMem (s.mem.writeList s.i.toNat (bcdDigits (s.reg x)))).advance := by
  simp [execLdB, s.memWrite_ok (a := s.i.toNat) (bs := bcdDigits (s.reg x)) (by simp; omega)]

theorem execLdB_fault (x : RegIx) (s : State) (h : 0xFFF < s.i.toNat + 2) :
    execLdB x s = .next (s.halt .addressingFault) := by
  simp [execLdB, s.memWrite_fault (a := s.i.toNat) (bs := bcdDigits (s.reg x)) (by simp) (by simp; omega)]

theorem execStoreRegs_ok (x : RegIx) (s : State) (h : s.i.toNat + x.val ≤ 0xFFF) :
    execStoreRegs x s = .next (s.setMem (s.mem.writeList s.i.toNat (s.regsTo x))).advance := by
  simp [execStoreRegs, s.memWrite_ok (a := s.i.toNat) (bs := s.regsTo x) (by simp; omega)]

theorem execStoreRegs_fault (x : RegIx) (s : State) (h : 0xFFF < s.i.toNat + x.val) :
    execStoreRegs x s = .next (s.halt .addressingFault) := by
  simp [execStoreRegs, s.memWrite_fault (a := s.i.toNat) (bs := s.regsTo x) (by simp) (by simp; omega)]

theorem execLoadRegs_ok (x : RegIx) (s : State) (h : s.i.toNat + x.val ≤ 0xFFF) :
    execLoadRegs x s = .next (s.setRegs (s.mem.readList s.i.toNat (x.val + 1))).advance := by
  simp [execLoadRegs, s.memRead_ok (a := s.i.toNat) (n := x.val + 1) (by omega)]

theorem execLoadRegs_fault (x : RegIx) (s : State) (h : 0xFFF < s.i.toNat + x.val) :
    execLoadRegs x s = .next (s.halt .addressingFault) := by
  simp [execLoadRegs, s.memRead_fault (a := s.i.toNat) (n := x.val + 1) (by omega) (by omega)]

/-- What `DRW` makes of the display and the flag, from the sprite bytes of the state before the cycle. -/
theorem execDrw_ok (x y n : RegIx) (s : State) (h : n.val = 0 ∨ s.i.toNat + n.val - 1 ≤ 0xFFF) :
    execDrw x y n s = .next (((s.setFb (s.fb.draw (s.reg x) (s.reg y) (s.mem.readList s.i.toNat n.val)).1).setReg regF
      (flag (s.fb.draw (s.reg x) (s.reg y) (s.mem.readList s.i.toNat n.val)).2)).advance) := by
  simp [execDrw, s.memRead_ok (a := s.i.toNat) (n := n.val) (by omega)]

theorem execDrw_fault (x y n : RegIx) (s : State) (h0 : n.val ≠ 0) (h : 0xFFF < s.i.toNat + n.val - 1) :
    execDrw x y n s = .next (s.halt .addressingFault) := by
  simp [execDrw, s.memRead_fault (a := s.i.toNat) (n := n.val) h0 (by omega)]

/-! ### Inversions: all that a meaning which can fault can do -/

theorem execCall_cases {nnn : BitVec 12} {s t : State} (h : execCall nnn s = .next t) :
    (s.sp.val = 16 ∧ t = s.halt .stackOverflow) ∨ ∃ hs : s.sp.val < 16, t = State.setPc { s with
      stack := s.stack.set s.sp.val s.nextPc, sp := ⟨s.sp.val + 1, by omega⟩ } (addrOf nnn) := by
  have := s.sp.isLt
  by_cases hs : s.sp.val = 16
  · rw [execCall_fault _ _ hs] at h
    exact .inl ⟨hs, by simpa using h.symm⟩
  · rw [execCall_ok _ _ (by omega)] at h
    exact .inr ⟨by omega, by simpa using h.symm⟩

theorem execRet_cases {s t : State} (h : execRet s = .next t) :
    (s.sp.val = 0 ∧ t = s.halt .stackUnderflow) ∨ (s.sp.val ≠ 0 ∧
      t = State.setPc { s with sp := ⟨s.sp.val - 1, by omega⟩ } s.stack[s.sp.val - 1]) := by
  by_cases hs : s.sp.val = 0
  · rw [execRet_fault _ hs] at h
    exact .inl ⟨hs, by simpa using h.symm⟩
  · rw [execRet_ok _ hs] at h
    exact .inr ⟨hs, by simpa using h.symm⟩

theorem execLdB_cases {x : RegIx} {s t : State} (h : execLdB x s = .next t) :
    (0xFFF < s.i.toNat + 2 ∧ t = s.halt .addressingFault) ∨ (s.i.toNat + 2 ≤ 0xFFF ∧
      t = (s.setMem (s.mem.writeList s.i.toNat (bcdDigits (s.reg x)))).advance) := by
  by_cases hs : s.i.toNat + 2 ≤ 0xFFF
  · rw [execLdB_ok _ _ hs] at h
    exact .inr ⟨hs, by simpa using h.symm⟩
  · rw [execLdB_fault _ _ (by omega)] at h
    exact .inl ⟨by omega, by simpa using h.symm⟩

theorem execStoreRegs_cases {x : RegIx} {s t : State} (h : execStoreRegs x s = .next t) :
    (0xFFF < s.i.toNat + x.val ∧ t = s.halt .addressingFault) ∨ (s.i.toNat + x.val ≤ 0xFFF ∧
      t = (s.setMem (s.mem.writeList s.i.toNat (s.regsTo x))).advance) := by
  by_cases hs : s.i.toNat + x.val ≤ 0xFFF
  · rw [execStoreRegs_ok _ _ hs] at h
    exact .inr ⟨hs, by simpa using h.symm⟩
  · rw [execStoreRegs_fault _ _ (by omega)] at h
    exact .inl ⟨by omega, by simpa using h.symm⟩

theorem execLoadRegs_cases {x : RegIx} {s t : State} (h : execLoadRegs x s = .next t) :
    (0xFFF < s.i.toNat + x.val ∧ t = s.halt .addressingFault) ∨ (s.i.toNat + x.val ≤ 0xFFF ∧
      t = (s.setRegs (s.mem.readList s.i.toNat (x.val + 1))).advance) := by
  by_cases hs : s.i.toNat + x.val ≤ 0xFFF
  · rw [execLoadRegs_ok _ _ hs] at h
    exact .inr ⟨hs, by simpa using h.symm⟩
  · rw [execLoadRegs_fault _ _ (by omega)] at h
    exact .inl ⟨by omega, by simpa using h.symm⟩

theorem execDrw_cases {x y n : RegIx} {s t : State} (h : execDrw x y n s = .next t) :
    (n.val ≠ 0 ∧ 0xFFF < s.i.toNat + n.val - 1 ∧ t = s.halt .addressingFault) ∨
    ((n.val = 0 ∨ s.i.toNat + n.val - 1 ≤ 0xFFF) ∧
      t = ((s.setFb (s.fb.draw (s.reg x) (s.reg y) (s.mem.readList s.i.toNat n.val)).1).setReg regF
        (flag (s.fb.draw (s.reg x) (s.reg y) (s.mem.readList s.i.toNat n.val)).2)).advance) := by
  by_cases hs : n.val = 0 ∨ s.i.toNat + n.val - 1 ≤ 0xFFF
  · rw [execDrw_ok _ _ _ _ hs] at h
    exact .inr ⟨hs, by simpa using h.symm⟩
  · rw [execDrw_fault _ _ _ _ (by omega) (by omega)] at h
    exact .inl ⟨by omega, by omega, by simpa using h.symm⟩

/-- An instruction takes nothing from the waiting inputs: the cycle does (R36). -/
theorem exec_keeps_inputs {i : Instr} {s t : State} (h : exec i s = .next t) :
    t.inputs = s.inputs ∧ t.cycle = s.cycle := by
  cases i
  case call nnn => obtain ⟨-, rfl⟩ | ⟨_, rfl⟩ := execCall_cases h <;> exact ⟨rfl, rfl⟩
  case ret => obtain ⟨-, rfl⟩ | ⟨_, rfl⟩ := execRet_cases h <;> exact ⟨rfl, rfl⟩
  case ldB x => obtain ⟨-, rfl⟩ | ⟨_, rfl⟩ := execLdB_cases h <;> exact ⟨rfl, rfl⟩
  case storeRegs x => obtain ⟨-, rfl⟩ | ⟨_, rfl⟩ := execStoreRegs_cases h <;> exact ⟨rfl, rfl⟩
  case loadRegs x => obtain ⟨-, rfl⟩ | ⟨_, rfl⟩ := execLoadRegs_cases h <;> exact ⟨rfl, rfl⟩
  case drw x y n => obtain ⟨-, -, rfl⟩ | ⟨_, rfl⟩ := execDrw_cases h <;> exact ⟨rfl, rfl⟩
  case ldVxK x =>
    simp only [exec, execLdVxK, State.commit_ok, Host.Outcome.next.injEq] at h
    subst h
    split <;> exact ⟨rfl, rfl⟩
  all_goals
    cases h
    exact ⟨rfl, rfl⟩

/-! ### Addresses as numbers -/

@[simp] theorem addrOf_toNat (nnn : BitVec 12) : (addrOf nnn).toNat = nnn.toNat := by
  have := nnn.isLt
  simp only [addrOf, BitVec.toNat_setWidth]
  omega

@[simp] theorem widen_toNat (b : Byte) : (widen b).toNat = b.toNat := by
  have := b.isLt
  simp only [widen, BitVec.toNat_setWidth]
  omega

/-- `A + 2` as a number, where an opcode can be fetched from `A`. -/
theorem State.nextPc_toNat (s : State) (h : s.pc.toNat ≤ 0xFFE) : s.nextPc.toNat = s.pc.toNat + 2 := by
  have h2 : (2 : Word).toNat = 2 := rfl
  simp only [State.nextPc, BitVec.toNat_add, h2]
  omega

end Sys2Proof.Machine
end

