-- ==== Sys2Proof/Laws/PerInstr.lean ====
section
/-! SUPPORT. The per-instruction family `FamilyNibble`: the word of every instruction lies in the opcode family the map
of spec/30_encoding.md R73 and R86 gives the instruction. -/

namespace Sys2Proof.Laws.FamilyNibble

/-- The first hexadecimal digit of the instruction's pattern (R86); `UNKNOWN` has words in four families (R82). -/
def families : Instr → List Nat
  | .halt | .cls | .ret => [0x0]
  | .jp _ => [0x1]
  | .call _ => [0x2]
  | .seImm _ _ => [0x3]
  | .sneImm _ _ => [0x4]
  | .seReg _ _ _ => [0x5]
  | .ldImm _ _ => [0x6]
  | .addImm _ _ => [0x7]
  | .ldReg _ _ | .orReg _ _ | .andReg _ _ | .xorReg _ _ | .addReg _ _ | .sub _ _ => [0x8]
  | .shr _ _ | .subn _ _ | .shl _ _ => [0x8]
  | .sneReg _ _ _ => [0x9]
  | .ldI _ => [0xA]
  | .jpV0 _ => [0xB]
  | .rnd _ _ => [0xC]
  | .drw _ _ _ => [0xD]
  | .skp _ | .sknp _ => [0xE]
  | .ldVxDt _ | .ldVxK _ | .ldDtVx _ | .ldStVx _ | .addI _ | .ldF _ => [0xF]
  | .ldB _ | .storeRegs _ | .loadRegs _ => [0xF]
  | .unknown _ => [0x0, 0x8, 0xE, 0xF]

/-- The word's family digit is the instruction's. -/
def Statement (i : Instr) : Prop := i.wellFormed = true → (fieldFam (encode i)).toNat ∈ families i

theorem halt : Statement (.halt) := by
  intro _
  decide
theorem cls : Statement (.cls) := by
  intro _
  decide
theorem ret : Statement (.ret) := by
  intro _
  decide
theorem jp (nnn : BitVec 12) : Statement (.jp nnn) := by
  intro _
  simp [families, encode]
theorem call (nnn : BitVec 12) : Statement (.call nnn) := by
  intro _
  simp [families, encode]
theorem seImm (x : RegIx) (kk : Byte) : Statement (.seImm x kk) := by
  intro _
  simp [families, encode]
theorem sneImm (x : RegIx) (kk : Byte) : Statement (.sneImm x kk) := by
  intro _
  simp [families, encode]
theorem seReg (x y : RegIx) (ignored : BitVec 4) : Statement (.seReg x y ignored) := by
  intro _
  simp [families, encode]
theorem ldImm (x : RegIx) (kk : Byte) : Statement (.ldImm x kk) := by
  intro _
  simp [families, encode]
theorem addImm (x : RegIx) (kk : Byte) : Statement (.addImm x kk) := by
  intro _
  simp [families, encode]
theorem ldReg (x y : RegIx) : Statement (.ldReg x y) := by
  intro _
  simp [families, encode]
theorem orReg (x y : RegIx) : Statement (.orReg x y) := by
  intro _
  simp [families, encode]
theorem andReg (x y : RegIx) : Statement (.andReg x y) := by
  intro _
  simp [families, encode]
theorem xorReg (x y : RegIx) : Statement (.xorReg x y) := by
  intro _
  simp [families, encode]
theorem addReg (x y : RegIx) : Statement (.addReg x y) := by
  intro _
  simp [families, encode]
theorem sub (x y : RegIx) : Statement (.sub x y) := by
  intro _
  simp [families, encode]
theorem shr (x y : RegIx) : Statement (.shr x y) := by
  intro _
  simp [families, encode]
theorem subn (x y : RegIx) : Statement (.subn x y) := by
  intro _
  simp [families, encode]
theorem shl (x y : RegIx) : Statement (.shl x y) := by
  intro _
  simp [families, encode]
theorem sneReg (x y : RegIx) (ignored : BitVec 4) : Statement (.sneReg x y ignored) := by
  intro _
  simp [families, encode]
theorem ldI (nnn : BitVec 12) : Statement (.ldI nnn) := by
  intro _
  simp [families, encode]
theorem jpV0 (nnn : BitVec 12) : Statement (.jpV0 nnn) := by
  intro _
  simp [families, encode]
theorem rnd (x : RegIx) (kk : Byte) : Statement (.rnd x kk) := by
  intro _
  simp [families, encode]
theorem drw (x y : RegIx) (n : RegIx) : Statement (.drw x y n) := by
  intro _
  simp [families, encode]
theorem skp (x : RegIx) : Statement (.skp x) := by
  intro _
  simp [families, encode]
theorem sknp (x : RegIx) : Statement (.sknp x) := by
  intro _
  simp [families, encode]
theorem ldVxDt (x : RegIx) : Statement (.ldVxDt x) := by
  intro _
  simp [families, encode]
theorem ldVxK (x : RegIx) : Statement (.ldVxK x) := by
  intro _
  simp [families, encode]
theorem ldDtVx (x : RegIx) : Statement (.ldDtVx x) := by
  intro _
  simp [families, encode]
theorem ldStVx (x : RegIx) : Statement (.ldStVx x) := by
  intro _
  simp [families, encode]
theorem addI (x : RegIx) : Statement (.addI x) := by
  intro _
  simp [families, encode]
theorem ldF (x : RegIx) : Statement (.ldF x) := by
  intro _
  simp [families, encode]
theorem ldB (x : RegIx) : Statement (.ldB x) := by
  intro _
  simp [families, encode]
theorem storeRegs (x : RegIx) : Statement (.storeRegs x) := by
  intro _
  simp [families, encode]
theorem loadRegs (x : RegIx) : Statement (.loadRegs x) := by
  intro _
  simp [families, encode]
theorem unknown (w : Word) : Statement (.unknown w) := by
  intro h
  simp only [Instr.wellFormed, isUnknownWord, Bool.or_eq_true, Bool.and_eq_true, beq_iff_eq] at h
  simp only [families, encode, fieldFam, List.mem_cons, List.not_mem_nil, or_false]
  omega

end Sys2Proof.Laws.FamilyNibble
end

