-- ==== Sys2Proof/Tests/Slice0.lean ====
section
/-! SUPPORT. Tests: ill-formed terms refused, the word of every constructor written out bit by bit from
spec/30_encoding.md R86, one-step vectors of spec/95_test_vectors.md (each test names its vector), and a witness for the
hypotheses of every obligation that has some. -/

namespace Sys2Proof.Tests

open Sys2Proof.Machine

/-! ### Ill-formed terms (R82) -/

theorem test_wellFormed_refuses_known_words_of_family_0 :
    (Instr.unknown 0x0000).wellFormed = false ∧ (Instr.unknown 0x00E0).wellFormed = false ∧
    (Instr.unknown 0x00EE).wellFormed = false := by decide

theorem test_wellFormed_refuses_known_words_of_family_8 :
    (Instr.unknown 0x8AB0).wellFormed = false ∧ (Instr.unknown 0x8AB7).wellFormed = false ∧
    (Instr.unknown 0x8ABE).wellFormed = false := by decide

theorem test_wellFormed_refuses_known_words_of_family_E :
    (Instr.unknown 0xE19E).wellFormed = false ∧ (Instr.unknown 0xE1A1).wellFormed = false := by decide

theorem test_wellFormed_refuses_known_words_of_family_F :
    (Instr.unknown 0xF007).wellFormed = false ∧ (Instr.unknown 0xFF65).wellFormed = false := by decide

theorem test_wellFormed_refuses_words_of_whole_families :
    (Instr.unknown 0x1000).wellFormed = false ∧ (Instr.unknown 0x5AB7).wellFormed = false ∧
    (Instr.unknown 0xDFFF).wellFormed = false := by decide

theorem test_wellFormed_accepts_unknown_words :
    (Instr.unknown 0x0123).wellFormed = true ∧ (Instr.unknown 0x8AB8).wellFormed = true ∧
    (Instr.unknown 0xE101).wellFormed = true ∧ (Instr.unknown 0xF030).wellFormed = true := by decide

/-! ### Words written out from the patterns of R86, family first -/

theorem test_decode_family_0 :
    decode 0b0000_0000_0000_0000#16 = .halt ∧ decode 0b0000_0000_1110_0000#16 = .cls ∧
    decode 0b0000_0000_1110_1110#16 = .ret ∧ decode 0b0000_0000_1110_0001#16 = .unknown 0x00E1 := by decide

theorem test_decode_addresses :
    decode 0b0001_1010_1011_1100#16 = .jp 0xABC ∧ decode 0b0010_1010_1011_1100#16 = .call 0xABC ∧
    decode 0b1010_0001_0010_0011#16 = .ldI 0x123 ∧ decode 0b1011_1111_1111_1111#16 = .jpV0 0xFFF := by decide

theorem test_decode_immediates :
    decode 0b0011_1010_0100_0010#16 = .seImm 10 0x42 ∧ decode 0b0100_1010_0100_0010#16 = .sneImm 10 0x42 ∧
    decode 0b0110_0000_0000_0101#16 = .ldImm 0 5 ∧ decode 0b0111_1010_0000_0010#16 = .addImm 10 2 ∧
    decode 0b1100_0001_0000_1111#16 = .rnd 1 0x0F := by decide

theorem test_decode_two_registers :
    decode 0b0101_1010_1011_0001#16 = .seReg 10 11 1 ∧ decode 0b1001_1010_1011_0111#16 = .sneReg 10 11 7 ∧
    decode 0b1101_0001_0010_0101#16 = .drw 1 2 5 := by decide

theorem test_decode_family_8 :
    decode 0b1000_1010_1011_0000#16 = .ldReg 10 11 ∧ decode 0b1000_1010_1011_0001#16 = .orReg 10 11 ∧
    decode 0b1000_1010_1011_0010#16 = .andReg 10 11 ∧ decode 0b1000_1010_1011_0011#16 = .xorReg 10 11 ∧
    decode 0b1000_1010_1011_0100#16 = .addReg 10 11 ∧ decode 0b1000_1010_1011_0101#16 = .sub 10 11 ∧
    decode 0b1000_1010_1011_0110#16 = .shr 10 11 ∧ decode 0b1000_1010_1011_0111#16 = .subn 10 11 ∧
    decode 0b1000_1010_1011_1110#16 = .shl 10 11 ∧ decode 0b1000_1010_1011_1000#16 = .unknown 0x8AB8 := by decide

theorem test_decode_family_E :
    decode 0b1110_0001_1001_1110#16 = .skp 1 ∧ decode 0b1110_0001_1010_0001#16 = .sknp 1 ∧
    decode 0b1110_0001_0000_1110#16 = .unknown 0xE10E := by decide

theorem test_decode_family_F :
    decode 0b1111_0011_0000_0111#16 = .ldVxDt 3 ∧ decode 0b1111_0011_0000_1010#16 = .ldVxK 3 ∧
    decode 0b1111_0011_0001_0101#16 = .ldDtVx 3 ∧ decode 0b1111_0011_0001_1000#16 = .ldStVx 3 ∧
    decode 0b1111_0011_0001_1110#16 = .addI 3 ∧ decode 0b1111_0011_0010_1001#16 = .ldF 3 ∧
    decode 0b1111_0011_0011_0011#16 = .ldB 3 ∧ decode 0b1111_0011_0101_0101#16 = .storeRegs 3 ∧
    decode 0b1111_0011_0110_0101#16 = .loadRegs 3 ∧ decode 0b1111_0011_0111_0101#16 = .unknown 0xF375 := by decide

/-- The reserved words of the table `V-DEC` (spec/95_test_vectors.md). -/
theorem test_decode_reserved_words :
    ∀ w ∈ [0x00E1, 0x00FE, 0x0123, 0x01E0, 0x0FEE, 0x0001, 0x8AB8, 0x8AB9, 0x8ABA, 0x8ABB, 0x8ABC, 0x8ABD, 0x8ABF] ++
      [0xE000, 0xE19F, 0xE10E, 0xE1A0, 0xE101, 0xF000, 0xF0FF, 0xF005, 0xF075, 0xF085, 0xF01F, 0xF030],
      decode (BitVec.ofNat 16 w) = .unknown (BitVec.ofNat 16 w) := by decide

theorem test_decodeBytes_high_byte_first :
    decodeBytes [0x6A, 0x11, 0x99] = .ok (.ldImm 10 0x11, [0x99]) := by rfl

theorem test_decodeBytes_refuses_half_an_opcode : decodeBytes [0x6A] = .error .truncated := by rfl

/-! ### One step on a small state -/

/-- The reset state with these registers, this index and these bytes of memory. -/
def start (v : List (RegIx × Byte)) (i : Word) (mem : List (Nat × Byte)) : State :=
  let s := v.foldl (fun s p => s.setReg p.1 p.2) State.reset
  { s with i := i, mem := mem.foldl (fun m p => m.write p.1 p.2) s.mem }

/-- The state after one step of the opcode at `PC`. -/
def after (op : Nat) (s : State) : State :=
  match step (s.withFetchWord 16 op) with
  | .next t => t
  | .fault f => nomatch f
  | .refused _ => s

/-- The machine with these inputs for the coming cycle. -/
def withInput (s : State) (keys : BitVec 16) (event : Option (BitVec 4)) (rand : Byte) : State :=
  { s with inputs := [⟨keys, event, rand⟩] }

/-- The machine with the pixel in column 1 of this display row on. -/
def withPixel (s : State) (y : Row) : State := { s with fb := s.fb.set y.val 2 }

/-- V-FET-8. -/
theorem test_halt_keeps_pc :
    let t := after 0x0000 State.reset
    t.status = .halted .sentinel ∧ t.pc = 0x200 := by decide

/-- V-FLW-1. -/
theorem test_jp : (after 0x1ABC State.reset).pc = 0xABC := by decide

/-- V-FLW-6. -/
theorem test_call_at_depth_15 :
    let t := after 0x2ABC { State.reset with sp := 15 }
    t.stack[15] = 0x202 ∧ t.sp = 16 ∧ t.pc = 0xABC ∧ t.status = .running := by decide

/-- V-FLW-7. -/
theorem test_call_at_depth_16 :
    let t := after 0x2ABC { State.reset with sp := 16 }
    t.status = .halted .stackOverflow ∧ t.pc = 0x200 ∧ t.sp = 16 := by decide

/-- V-FLW-8. -/
theorem test_ret :
    let t := after 0x00EE { State.reset with sp := 2, stack := (State.reset.stack.set 0 0x300).set 1 0x456 }
    t.sp = 1 ∧ t.pc = 0x456 ∧ t.stack[1] = 0x456 := by decide

/-- V-FLW-10. -/
theorem test_ret_on_empty_stack :
    let t := after 0x00EE State.reset
    t.status = .halted .stackUnderflow ∧ t.pc = 0x200 ∧ t.sp = 0 := by decide

/-- V-FLW-12. -/
theorem test_jpV0_is_not_reduced : (after 0xBFFF (start [(0, 0xFF)] 0 [])).pc = 0x10FE := by decide

/-- V-FLW-15. -/
theorem test_jpV0_reads_V0 : (after 0xB300 (start [(3, 0x55)] 0 [])).pc = 0x300 := by decide

/-- V-FLW-16. -/
theorem test_unknown_advances :
    let s := start [(10, 3), (11, 3)] 0 []
    after 0x8AB8 s = { (s.withFetchWord 16 0x8AB8).setPc 0x202 with cycle := 1 } := by decide

/-- V-FET-1 to V-FET-3. -/
theorem test_fetch_bounds :
    ∀ pc ∈ [0x201, 0x1FE, 0x1000], ∃ t, step { State.reset with pc := pc } = .next t ∧
      t.status = .halted .addressingFault ∧ t.pc = pc := by
  simp only [List.forall_mem_cons]
  exact ⟨⟨_, rfl, rfl, rfl⟩, ⟨_, rfl, rfl, rfl⟩, ⟨_, rfl, rfl, rfl⟩, by simp⟩

/-- V-FET-4. -/
theorem test_fetch_at_PC_HI :
    let t := after 0x6A11 { State.reset with pc := 0xFFE }
    t.reg 10 = 0x11 ∧ t.pc = 0x1000 ∧ t.status = .running := by decide

/-- V-SKP-1, V-SKP-2. -/
theorem test_seImm :
    (after 0x3A42 (start [(10, 0x42)] 0 [])).pc = 0x204 ∧ (after 0x3A42 (start [(10, 0x43)] 0 [])).pc = 0x202 := by
  decide

/-- V-SKP-3, V-SKP-4. -/
theorem test_sneImm :
    (after 0x4A42 (start [(10, 0x42)] 0 [])).pc = 0x202 ∧ (after 0x4A42 (start [(10, 0x43)] 0 [])).pc = 0x204 := by
  decide

/-- V-SKP-8, V-SKP-6. -/
theorem test_seReg :
    (after 0x5AB1 (start [(10, 3), (11, 3)] 0 [])).pc = 0x204 ∧
    (after 0x5AB0 (start [(10, 7), (11, 8)] 0 [])).pc = 0x202 := by decide

/-- V-SKP-9, V-SKP-10. -/
theorem test_sneReg :
    (after 0x9AB0 (start [(10, 7), (11, 7)] 0 [])).pc = 0x202 ∧
    (after 0x9AB0 (start [(10, 7), (11, 8)] 0 [])).pc = 0x204 := by decide

/-- V-SKP-16, V-SKP-13. -/
theorem test_skp :
    (after 0xEA9E (withInput (start [(10, 0x15)] 0 []) 0x0020 none 0)).pc = 0x204 ∧
    (after 0xEA9E (withInput (start [(10, 5)] 0 []) 0xFFDF none 0)).pc = 0x202 := by decide

/-- V-SKP-17, V-SKP-15. -/
theorem test_sknp :
    (after 0xEAA1 (withInput (start [(10, 0xF5)] 0 []) 0x0020 none 0)).pc = 0x202 ∧
    (after 0xEAA1 (withInput (start [(10, 5)] 0 []) 0 none 0)).pc = 0x204 := by decide

/-- V-ALU-1. -/
theorem test_ldImm :
    let t := after 0x6A7F State.reset
    t.reg 10 = 0x7F ∧ t.pc = 0x202 := by decide

/-- V-ALU-3. -/
theorem test_addImm_sets_no_flag :
    let t := after 0x7A02 (start [(10, 0xFF)] 0 [])
    t.reg 10 = 1 ∧ t.reg 15 = 0 := by decide

/-- V-ALU-5. -/
theorem test_addImm_to_VF : (after 0x7FFF (start [(15, 1)] 0 [])).reg 15 = 0 := by decide

/-- V-ALU-7. -/
theorem test_ldReg :
    let t := after 0x8AB0 (start [(11, 0x5A)] 0 [])
    t.reg 10 = 0x5A ∧ t.reg 11 = 0x5A := by decide

/-- V-ALU-10. -/
theorem test_or :
    let t := after 0x8AB1 (start [(10, 0xF0), (11, 0x0F), (15, 1)] 0 [])
    t.reg 10 = 0xFF ∧ t.reg 15 = 1 := by decide

/-- V-ALU-11. -/
theorem test_and :
    let t := after 0x8AB2 (start [(10, 0xF0), (11, 0x3C), (15, 1)] 0 [])
    t.reg 10 = 0x30 ∧ t.reg 15 = 1 := by decide

/-- V-ALU-12. -/
theorem test_xor :
    let t := after 0x8AB3 (start [(10, 0xF0), (11, 0x3C), (15, 1)] 0 [])
    t.reg 10 = 0xCC ∧ t.reg 15 = 1 := by decide

/-- V-ALU-19: the old flag is the operand. -/
theorem test_addReg_reads_old_VF :
    let t := after 0x8AF4 (start [(10, 0x10), (15, 1)] 0 [])
    t.reg 10 = 0x11 ∧ t.reg 15 = 0 := by decide

/-- V-ALU-16, V-ALU-17: sums 255 and 256. -/
theorem test_addReg_carry :
    (after 0x8AB4 (start [(10, 0x80), (11, 0x7F)] 0 [])).reg 15 = 0 ∧
    (after 0x8AB4 (start [(10, 0x80), (11, 0x80)] 0 [])).reg 15 = 1 := by decide

/-- V-ALU-22. -/
theorem test_sub_borrow :
    let t := after 0x8AB5 (start [(10, 3), (11, 5), (15, 1)] 0 [])
    t.reg 10 = 0xFE ∧ t.reg 15 = 0 := by decide

/-- V-ALU-23: equal operands. -/
theorem test_sub_equal :
    let t := after 0x8AB5 (start [(10, 7), (11, 7), (15, 1)] 0 [])
    t.reg 10 = 0 ∧ t.reg 15 = 0 := by decide

/-- V-ALU-29: `VB` is not read. -/
theorem test_shr :
    let t := after 0x8AB6 (start [(10, 5), (11, 0xFF)] 0 [])
    t.reg 10 = 2 ∧ t.reg 15 = 1 := by decide

/-- V-ALU-34: the flag remains. -/
theorem test_shr_of_VF : (after 0x8FB6 (start [(15, 2)] 0 [])).reg 15 = 0 := by decide

/-- V-ALU-35, V-ALU-36. -/
theorem test_subn :
    (after 0x8AB7 (start [(10, 3), (11, 5)] 0 [])).reg 10 = 2 ∧
    (after 0x8AB7 (start [(10, 3), (11, 5)] 0 [])).reg 15 = 1 ∧
    (after 0x8AB7 (start [(10, 5), (11, 3), (15, 1)] 0 [])).reg 10 = 0xFE ∧
    (after 0x8AB7 (start [(10, 5), (11, 3), (15, 1)] 0 [])).reg 15 = 0 := by decide

/-- V-ALU-40. -/
theorem test_shl :
    let t := after 0x8ABE (start [(10, 0x81)] 0 [])
    t.reg 10 = 2 ∧ t.reg 15 = 1 := by decide

/-- V-IDX-1. -/
theorem test_ldI : (after 0xA123 State.reset).i = 0x123 := by decide

/-- V-IDX-5: the sum wraps. -/
theorem test_addI_wraps :
    let t := after 0xFA1E (start [(10, 2)] 0xFFFF [])
    t.i = 1 ∧ t.reg 15 = 0 := by decide

/-- V-IDX-11: the low nibble names the digit, ten glyphs of five bytes above `FONT_BASE`. -/
theorem test_ldF :
    ∃ t, exec (.ldF 10) (start [(10, 0x1A)] 0 []) = .next t ∧
      t.i = BitVec.ofNat 16 (Config.fontBase.val + 50) := ⟨_, rfl, rfl⟩

/-- V-IDX-13. -/
theorem test_ldB :
    let t := after 0xFA33 (start [(10, 123)] 0x300 [])
    t.mem.read 0x300 = 1 ∧ t.mem.read 0x301 = 2 ∧ t.mem.read 0x302 = 3 ∧ t.i = 0x300 := by decide

/-- V-IDX-17. -/
theorem test_ldB_out_of_range :
    let t := after 0xFA33 (start [(10, 9)] 0xFFE [])
    t.status = .halted .addressingFault ∧ t.mem.read 0xFFE = 0 ∧ t.pc = 0x200 := by decide

/-- V-IDX-19. -/
theorem test_storeRegs :
    let t := after 0xF255 (start [(0, 0x11), (1, 0x22), (2, 0x33), (3, 0x44)] 0x400 [])
    t.mem.readList 0x400 4 = [0x11, 0x22, 0x33, 0] ∧ t.i = 0x400 := by decide

/-- V-IDX-21. -/
theorem test_storeRegs_out_of_range :
    let t := after 0xF155 (start [(0, 0xAB), (1, 1)] 0xFFF [])
    t.status = .halted .addressingFault ∧ t.mem.read 0xFFF = 0 := by decide

/-- V-IDX-24. -/
theorem test_loadRegs :
    let t := after 0xF265 (start [(3, 9)] 0x400 [(0x400, 0xDE), (0x401, 0xAD), (0x402, 0xBE), (0x403, 0xEF)])
    t.reg 0 = 0xDE ∧ t.reg 1 = 0xAD ∧ t.reg 2 = 0xBE ∧ t.reg 3 = 9 ∧ t.i = 0x400 := by decide

/-- V-IDX-26. -/
theorem test_loadRegs_out_of_range :
    let t := after 0xF165 (start [(0, 7), (1, 8)] 0xFFF [(0xFFF, 0x5A)])
    t.status = .halted .addressingFault ∧ t.reg 0 = 7 := by decide

/-- V-TKR-1. -/
theorem test_ldVxDt :
    let t := after 0xFA07 { State.reset with dt := 0x3C }
    t.reg 10 = 0x3C ∧ t.dt = 0x3C := by decide

/-- V-TKR-3. -/
theorem test_ldDtVx :
    let t := after 0xFA15 (start [(10, 0x3C)] 0 [])
    t.dt = 0x3C ∧ t.st = 0 := by decide

/-- V-TKR-5. -/
theorem test_ldStVx :
    let t := after 0xFA18 (start [(10, 0x3C)] 0 [])
    t.st = 0x3C ∧ t.dt = 0 := by decide

/-- V-TKR-10: held keys are no events. -/
theorem test_ldVxK_waits :
    let t := after 0xF10A (withInput (start [(1, 0x33)] 0 []) 0xFFFF none 0)
    t.pc = 0x200 ∧ t.reg 1 = 0x33 ∧ t.status = .running := by decide

/-- V-TKR-8: key 0 is an event. -/
theorem test_ldVxK_takes_key_0 :
    let t := after 0xF10A (withInput (start [(1, 0x33)] 0 []) 0 (some 0) 0)
    t.pc = 0x202 ∧ t.reg 1 = 0 := by decide

/-- V-TKR-11. -/
theorem test_rnd : (after 0xC10F (withInput State.reset 0 none 0xA7)).reg 1 = 7 := by decide

/-- V-DRW-18. -/
theorem test_cls :
    let t := after 0x00E0 (withPixel (start [(15, 1)] 0 []) 31)
    t.fb = Vector.replicate 32 0 ∧ t.reg 15 = 1 := by decide

/-- V-DRW-3: the sprite wraps at column 64. -/
theorem test_drw_wraps :
    let t := after 0xDAB1 (start [(10, 60)] 0x300 [(0x300, 0xFF)])
    t.fb[0] = 0xF00000000000000F ∧ t.reg 15 = 0 := by decide

/-- V-DRW-8: a pixel goes from on to off. -/
theorem test_drw_collision :
    let t := after 0xDAB1 (withPixel (start [] 0x300 [(0x300, 0xC0)]) 0)
    t.fb[0] = 1 ∧ t.reg 15 = 1 := by decide

/-- V-TKR-16, V-TKR-19. -/
theorem test_tickDelay :
    State.reset.tickDelay.dt = 0 ∧
    (State.tickDelay { State.reset with dt := 2, status := .halted .sentinel }).dt = 1 := by decide

/-- V-TKR-18. -/
theorem test_tickSound :
    let t := State.tickSound { State.reset with st := 1, dt := 9 }
    t.st = 0 ∧ t.dt = 9 := by decide

/-- V-RST-2. -/
theorem test_loadProgram :
    (State.reset.loadProgram [0x60, 0x05]).2 = .ok ∧
    (State.reset.loadProgram [0x60, 0x05]).1.mem = [(0x200, 0x60), (0x201, 0x05)] := by decide

/-- Writing the reset value removes the entry, and addresses stay in order. -/
theorem test_memory_is_canonical :
    Memory.write (Memory.write (Memory.write [] 0x302 7) 0x300 9) 0x302 0 = [(0x300, 9)] := by decide

theorem test_withFetchWord_runs_after_reset :
    let s := State.reset.withFetchWord 16 0x6005
    s.mem = [(0x200, 0x60), (0x201, 0x05)] ∧ s.pc = 0x200 := by decide

theorem test_decodeTableWord :
    decodeTableWord 16 0xD123 = some (.drw 1 2 3) ∧ decodeTableWord 16 0 = some .halt ∧
    decodeTableWord 24 0 = none := by decide

/-! ### Witnesses: a concrete input that meets all the hypotheses of a statement together -/

/-- Running, with `LD VA,0x11` at the highest fetchable address. -/
def atPcHi : State := { start [] 0 [(0xFFE, 0x6A), (0xFFF, 0x11)] with pc := 0xFFE }

/-- Running, with `CALL 0x300` at `PC` and this depth. -/
def calling (depth : Fin 17) : State := { start [] 0 [(0x200, 0x23)] with sp := depth }

/-- Running at a return, with one return address on the stack. -/
def returning : State :=
  { start [] 0 [(0x201, 0xEE)] with sp := 1, stack := State.reset.stack.set 0 0x300 }

/-- The same, the entry being what a `CALL` at `0xFFE` pushes. -/
def returningPast : State := { returning with stack := State.reset.stack.set 0 0x1000 }

/-- A sprite row `0xC0` at `I`, with the pixel in column 1 of row 0 on. -/
def drawing : State := withPixel (start [] 0xFFF [(0xFFF, 0xC0)]) 0

/-- Halted by the sentinel. -/
def stopped : State := { State.reset with status := .halted .sentinel }

theorem witness_DecodeInvertsEncode :
    (Instr.unknown 0x8AB8).wellFormed = true ∧ (Instr.drw 15 15 15).wellFormed = true := by decide

theorem witness_DispatchAgreesWithOpcodeTable :
    ∃ r ∈ opcodeRows, r.takes 0xDFFF = true ∧ r.kind = .drw := ⟨⟨0xD000, 0xF000, .drw⟩, by decide, by decide, rfl⟩

theorem witness_StepRunsTheInstructionAtPc_at_PC_HI :
    atPcHi.status = .running ∧ atPcHi.pc.toNat = 0xFFE ∧ (Instr.ldImm 10 0x11).wellFormed = true ∧
    atPcHi.mem.read atPcHi.pc.toNat = (encode (.ldImm 10 0x11)).extractLsb' 8 8 ∧
    atPcHi.mem.read (atPcHi.pc.toNat + 1) = (encode (.ldImm 10 0x11)).extractLsb' 0 8 ∧
    ∃ t, exec (.ldImm 10 0x11) atPcHi = .next t := by
  refine ⟨rfl, rfl, rfl, by decide, by decide, _, rfl⟩

theorem witness_StepRunsTheInstructionAtPc_at_PC_LO :
    (calling 0).status = .running ∧ (calling 0).pc.toNat = 0x200 ∧
    (calling 0).mem.read 0x200 = (encode (.call 0x300)).extractLsb' 8 8 ∧
    (calling 0).mem.read 0x201 = (encode (.call 0x300)).extractLsb' 0 8 ∧
    ∃ t, exec (.call 0x300) (calling 0) = .next t := by
  refine ⟨rfl, rfl, by decide, by decide, exec_next _ _⟩

theorem witness_CycleTestsInOrder_halted : stopped.status = .halted .sentinel := rfl

/-- `PC` odd, just below `PC_LO`, just above `PC_HI`. -/
theorem witness_CycleTestsInOrder_bad_pc :
    ((0x201 : Word).toNat % 2 = 1 ∧ ({ State.reset with pc := 0x201 } : State).status = .running) ∧
    ((0x1FE : Word).toNat < 0x200 ∧ ({ State.reset with pc := 0x1FE } : State).status = .running) ∧
    (0xFFE < (0x1000 : Word).toNat ∧ ({ State.reset with pc := 0x1000 } : State).status = .running) := by
  refine ⟨⟨by decide, rfl⟩, ⟨by decide, rfl⟩, by decide, rfl⟩

theorem witness_CycleTestsInOrder_sentinel :
    State.reset.status = .running ∧ State.reset.pc.toNat = 0x200 ∧ State.reset.mem.read 0x200 = 0 ∧
    State.reset.mem.read 0x201 = 0 := by decide

theorem witness_CycleTestsInOrder_fault :
    (calling 16).status = .running ∧ (calling 16).pc.toNat = 0x200 ∧
    opcodeOf ((calling 16).mem.read 0x200) ((calling 16).mem.read 0x201) = 0x2300 ∧
    faultOf (decode 0x2300) (calling 16) = some .stackOverflow := by decide

theorem witness_CycleTestsInOrder_no_fault :
    atPcHi.status = .running ∧ atPcHi.pc.toNat = 0xFFE ∧
    opcodeOf (atPcHi.mem.read 0xFFE) (atPcHi.mem.read 0xFFF) = 0x6A11 ∧
    faultOf (decode 0x6A11) atPcHi = none := by decide

theorem witness_StackPrimitives :
    (calling 16).sp.val = 16 ∧ (calling 15).sp.val ≠ 16 ∧ (calling 0).sp.val = 0 ∧ (calling 1).sp.val ≠ 0 ∧
    (List.replicate 16 (0x202 : Word)).length = 16 := by decide

/-- One state and instruction for each reason, at the boundary of its range, and the nearest that does not fault. -/
theorem witness_InstructionsFaultExactlyAsListed :
    faultOf (.drw 0 0 1) (start [] 0x1000 []) = some .addressingFault ∧
    faultOf (.drw 0 0 1) (start [] 0xFFF []) = none ∧ faultOf (.drw 0 0 0) (start [] 0xFFFF []) = none ∧
    faultOf (.ldB 0) (start [] 0xFFE []) = some .addressingFault ∧ faultOf (.ldB 0) (start [] 0xFFD []) = none ∧
    faultOf (.storeRegs 15) (start [] 0xFF1 []) = some .addressingFault ∧
    faultOf (.storeRegs 15) (start [] 0xFF0 []) = none ∧
    faultOf (.loadRegs 0) (start [] 0x1000 []) = some .addressingFault ∧
    faultOf (.loadRegs 0) (start [] 0xFFF []) = none ∧
    faultOf (.call 0) (calling 16) = some .stackOverflow ∧ faultOf (.call 0) (calling 15) = none ∧
    faultOf .ret (calling 0) = some .stackUnderflow ∧ faultOf .ret (calling 1) = none ∧
    faultOf .halt State.reset = some .sentinel := by decide

theorem witness_StackOverflowExactlyAtFullCall :
    (calling 16).status = .running ∧ (calling 16).pending = some (.call 0x300) ∧
    ∃ t, step (calling 16) = .next t ∧ t.status = .halted .stackOverflow := ⟨rfl, rfl, _, rfl, rfl⟩

theorem witness_StackOverflowExactlyAtFullCall_with_room :
    (calling 15).status = .running ∧ ∃ t, step (calling 15) = .next t ∧ t.status = .running := ⟨rfl, _, rfl, rfl⟩

theorem witness_StackOverflowExactlyAtFullCall_sixteen_calls :
    (calling 0).status = .running ∧ (calling 0).sp.val = 0 ∧ (List.replicate 16 (0x300 : BitVec 12)).length = 16 := by
  decide

theorem witness_StackUnderflowExactlyAtEmptyRet :
    ({ returning with sp := 0 } : State).pending = some .ret ∧
    ∃ t, step { returning with sp := 0 } = .next t ∧ t.status = .halted .stackUnderflow := ⟨rfl, _, rfl, rfl⟩

theorem witness_StackUnderflowExactlyAtEmptyRet_with_entry :
    returning.status = .running ∧ ∃ t, step returning = .next t ∧ t.status = .running := ⟨rfl, _, rfl, rfl⟩

theorem witness_AddressingFaultHasFiveCauses :
    ({ State.reset with pc := 0x1000 } : State).status = .running ∧
    ∃ t, step { State.reset with pc := 0x1000 } = .next t ∧ t.status = .halted .addressingFault := ⟨rfl, _, rfl, rfl⟩

theorem witness_AddressingFaultHasFiveCauses_none :
    atPcHi.status = .running ∧ ∃ t, step atPcHi = .next t ∧ t.status = .running := ⟨rfl, _, rfl, rfl⟩

/-- The invariant holds of a state with a live return address, and that state steps. -/
theorem witness_StepKeepsInvariant : Inv returning ∧ ∃ t, step returning = .next t := by
  refine ⟨⟨⟨by show returning.mem.wf = true; decide, by show (0x200 : Nat) ≤ _; decide, ?_⟩, ?_⟩, _, rfl⟩
  · intro k hk
    have h0 : k = 0 := Fin.ext (by simpa [returning] using hk)
    subst h0
    decide
  · intro r h
    have running : returning.status = .running := rfl
    simp [running] at h

theorem witness_EveryHostScheduleKeepsCoreInvariant :
    CoreInv State.reset ∧
    ∃ t, hostRun [.reset, .loadProgram [0x60, 0x05], .step ⟨0, none, 0⟩, .tickDelay] State.reset = .next t := by
  refine ⟨⟨rfl, by show (0x200 : Nat) ≤ _; decide, fun k hk => ?_⟩, _, rfl⟩
  simp [State.reset] at hk

theorem witness_CanonicalMemoriesAreEqualData :
    Memory.wf (Memory.write (Memory.write [] 0x301 7) 0x300 9) = true ∧
    Memory.wf (Memory.write (Memory.write [] 0x300 9) 0x301 7) = true ∧
    ∀ a, (Memory.write (Memory.write [] 0x301 7) 0x300 9).read a =
      (Memory.write (Memory.write [] 0x300 9) 0x301 7).read a := by
  have h : Memory.write (Memory.write [] 0x301 7) 0x300 9 = Memory.write (Memory.write [] 0x300 9) 0x301 7 := by decide
  exact ⟨by decide, by decide, fun a => by rw [h]⟩

theorem witness_RegistersWrittenOnlyAsListed :
    ∃ t, exec (.addReg 10 11) State.reset = .next t ∧ writesReg (.addReg 10 11) 9 = false := ⟨_, rfl, rfl⟩

/-- At the bounds of `PC`: the highest fetchable address, and the lowest. -/
theorem witness_PcAfterEachInstruction :
    (atPcHi.pc.toNat ≤ 0xFFE ∧ faultOf (.ldImm 10 0x11) atPcHi = none) ∧
    (returning.pc.toNat ≤ 0xFFE ∧ faultOf .ret returning = none) := by decide

theorem witness_frames_of_whole_machine :
    ∃ t, exec (.jp 0x300) State.reset = .next t ∧ Instr.jp 0x300 ≠ .cls ∧ Instr.jp 0x300 ≠ .ret ∧
      (∀ x y n, Instr.jp 0x300 ≠ .drw x y n) ∧ (∀ x, Instr.jp 0x300 ≠ .ldB x) ∧
      (∀ x, Instr.jp 0x300 ≠ .storeRegs x) ∧ (∀ nnn, Instr.jp 0x300 ≠ .call nnn) ∧
      (∀ nnn, Instr.jp 0x300 ≠ .ldI nnn) ∧ (∀ x, Instr.jp 0x300 ≠ .addI x) ∧ (∀ x, Instr.jp 0x300 ≠ .ldF x) ∧
      (∀ x, Instr.jp 0x300 ≠ .ldDtVx x) ∧ (∀ x, Instr.jp 0x300 ≠ .ldStVx x) := by
  refine ⟨_, rfl, ?_⟩
  simp

/-- A timer at its last value stays over a cycle that loads the other, and is written by its own load. -/
theorem witness_TimersChangeOnlyByTheirLoads :
    (∃ t, step { start [(1, 9)] 0 [(0x200, 0xF1), (0x201, 0x15)] with st := 1 } = .next t ∧ t.dt = 9 ∧ t.st = 1) ∧
    (∃ t, step { start [(1, 9)] 0 [(0x200, 0xF1), (0x201, 0x18)] with dt := 1 } = .next t ∧ t.dt = 1 ∧ t.st = 9) :=
  ⟨⟨_, rfl, by decide, by decide⟩, _, rfl, by decide, by decide⟩

theorem witness_SoundTimerHasNoEffect : ∃ t, step atPcHi = .next t := ⟨_, rfl⟩

/-- `SKP` under inputs that differ in all it does not read. -/
theorem witness_UnreadInputsHaveNoEffect :
    SameInputsRead (.skp 0) (State.input (withInput State.reset 0x20 none 1))
      (State.input { withInput State.reset 0x20 none 1 with inputs := [⟨0x20, some 3, 9⟩], cycle := 7 }) ∧
    ∃ t, exec (.skp 0) (withInput State.reset 0x20 none 1) = .next t := ⟨rfl, _, rfl⟩

theorem witness_CanonicalFormMeansTheSame : (Instr.seReg 10 11 7).wellFormed = true := rfl

/-- One live entry; the other stack differs in a dead one. -/
theorem witness_DeadStackEntriesUnobservable :
    (∀ k : Fin 16, k.val < returning.sp.val → (returning.stack.set 5 0x777)[k.val] = returning.stack[k.val]) ∧
    returning.stack.set 5 0x777 ≠ returning.stack ∧ ∃ t, step returning = .next t := by
  refine ⟨by decide, by decide, _, rfl⟩

theorem witness_DisplayReadOnlyByDraw :
    (∀ x y n, Instr.cls ≠ .drw x y n) ∧ ∃ t, exec .cls drawing = .next t := ⟨by simp, _, rfl⟩

/-- An odd target, the highest even one below `PC_LO`, the lowest even one above `0xFFE`, and that one popped. -/
theorem witness_BadTargetsFaultOneStepLater :
    ((0x3FF : BitVec 12).toNat % 2 = 1 ∧ ∃ t, exec (.jp 0x3FF) State.reset = .next t ∧ t.status = .running) ∧
    ((0x1FE : BitVec 12).toNat < 0x200 ∧ ∃ t, exec (.call 0x1FE) State.reset = .next t ∧ t.status = .running) ∧
    (0xFFE < (0xF01 : BitVec 12).toNat + ((start [(0, 0xFF)] 0 []).reg 0).toNat ∧
      ∃ t, exec (.jpV0 0xF01) (start [(0, 0xFF)] 0 []) = .next t ∧ t.status = .running) ∧
    (∃ k : Fin 16, returningPast.sp.val = k.val + 1 ∧ 0xFFE < returningPast.stack[k.val].toNat ∧
      ∃ t, exec .ret returningPast = .next t ∧ t.status = .running) :=
  ⟨⟨rfl, _, rfl, rfl⟩, ⟨by decide, _, rfl, rfl⟩, ⟨by decide, _, rfl, rfl⟩, 0, rfl, by decide, _, rfl, rfl⟩

theorem witness_CallPushesReturnAddress : (calling 15).sp.val < 16 ∧ (calling 0).sp.val < 16 := by decide

theorem witness_RetPopsReturnAddress :
    returning.sp.val = (0 : Fin 16).val + 1 ∧ (calling 16).sp.val = (15 : Fin 16).val + 1 := by decide

theorem witness_RetUndoesCall : (calling 15).sp.val < 16 := by decide

theorem witness_AddAndSubtractWithFlag : (10 : RegIx) ≠ 15 := by decide

theorem witness_ShiftsWithFlag : (14 : RegIx) ≠ 15 := by decide

theorem witness_BcdStoresThreeDigits :
    ((start [] 0xFFD []).mem.wf = true ∧ (start [] 0xFFD []).i.toNat ≤ 0xFFD) ∧
    ((start [] 0xFFE []).mem.wf = true ∧ 0xFFD < (start [] 0xFFE []).i.toNat) := by decide

theorem witness_StoreRegisters :
    ((start [] 0xFF0 []).mem.wf = true ∧ (start [] 0xFF0 []).i.toNat + (15 : RegIx).val ≤ 0xFFF) ∧
    ((start [] 0xFF1 []).mem.wf = true ∧ 0xFFF < (start [] 0xFF1 []).i.toNat + (15 : RegIx).val) := by decide

theorem witness_LoadRegisters :
    (start [] 0xFFF []).i.toNat + (0 : RegIx).val ≤ 0xFFF ∧
    0xFFF < (start [] 0xFFF []).i.toNat + (1 : RegIx).val := by decide

theorem witness_StoreThenLoadRestoresRegisters :
    (start [] 0xFF0 []).mem.wf = true ∧ (start [] 0xFF0 []).i.toNat + (15 : RegIx).val ≤ 0xFFF := by decide

/-- A store of all registers that ends at `0xFFF`, of one register into the low byte of the last opcode, and of the
digits at the highest index they have room at. -/
theorem witness_StoredWordIsFetchedAtOnce :
    (let s := start [] 0xFF0 [];
      s.mem.wf = true ∧ fetchable 0xFFE = true ∧ s.i.toNat + (15 : RegIx).val ≤ 0xFFF) ∧
    (let s := start [(0, 0xEE)] 0xFFF [];
      s.mem.wf = true ∧ s.i.toNat + (0 : RegIx).val ≤ 0xFFF ∧
        opcodeAfterStore s s.i.toNat (s.v.toList.take 1) 0xFFE = 0x00EE) ∧
    (let s := start [] 0xFFD [];
      s.mem.wf = true ∧ s.i.toNat + 2 ≤ 0xFFF) := by decide

theorem witness_KeyWaitReissues :
    (withInput State.reset 0xFFFF none 0).input.keyEvent = none ∧
    (withInput State.reset 0 (some 15) 0).input.keyEvent = some 15 := ⟨rfl, rfl⟩

/-- `LD V1,K` at `PC`, two cycles with no event and one with key 15. -/
theorem witness_KeyWaitEndsAtTheFirstKeyEvent :
    (start [] 0 [(0x200, 0xF1), (0x201, 0x0A)]).status = .running ∧
    (start [] 0 [(0x200, 0xF1), (0x201, 0x0A)]).pending = some (.ldVxK 1) ∧
    (∀ w ∈ [EnvInput.mk 0xFFFF none 0, EnvInput.mk 0 none 1], w.keyEvent = none) ∧
    (EnvInput.mk 0 (some 15) 0).keyEvent = some 15 := ⟨rfl, rfl, by decide, rfl⟩

/-- A sprite at the last byte of memory, one over a pixel that is on, and a draw of no rows. -/
theorem witness_DrawTogglesExactlyTheSpritePixels :
    (drawing.i.toNat + (1 : RegIx).val - 1 ≤ 0xFFF) ∧
    (SpriteCovers drawing 0 0 1 0 1 ∧ drawing.fb.pixel 0 1 = true) ∧
    (0 : RegIx).val = 0 ∧ (∀ py px, ¬ SpriteCovers drawing 0 0 0 py px) := by
  refine ⟨by decide, ⟨⟨0, 1, by decide, by decide, by decide, by decide, by decide⟩, by decide⟩, rfl, ?_⟩
  rintro py px ⟨r, c, hr, -⟩
  exact absurd hr (Nat.not_lt_zero r)

/-- A sprite over pixels that are all off. -/
theorem witness_DrawTogglesExactlyTheSpritePixels_no_collision :
    SpriteCovers (start [] 0xFFF [(0xFFF, 0xC0)]) 0 0 1 0 0 ∧
    ∀ py px, SpriteCovers (start [] 0xFFF [(0xFFF, 0xC0)]) 0 0 1 py px →
      (start [] 0xFFF [(0xFFF, 0xC0)]).fb.pixel py px = false := by
  refine ⟨⟨0, 0, by decide, by decide, by decide, by decide, by decide⟩, fun py px _ => ?_⟩
  simp [start, State.reset, FrameBuffer.pixel]

theorem witness_DrawTwiceRestoresTheDisplay :
    ((0 : RegIx) ≠ 15 ∧ drawing.i.toNat + (1 : RegIx).val - 1 ≤ 0xFFF) ∧ SpriteCovers drawing 0 0 1 0 1 ∧
    (∀ py px, ¬ SpriteCovers drawing 0 0 0 py px) := by
  refine ⟨by decide, ⟨0, 1, by decide, by decide, by decide, by decide, by decide⟩, ?_⟩
  rintro py px ⟨r, c, hr, -⟩
  exact absurd hr (Nat.not_lt_zero r)

theorem witness_ResetGivesEveryPartItsValue : ∃ t r, hostOp .reset stopped = .next (t, r) := ⟨_, _, rfl⟩

/-- The longest image that fits, and one byte more. -/
theorem witness_LoadProgramCopiesOrRefuses :
    State.reset.mem.wf = true ∧ (List.replicate 3584 (0xFF : Byte)).length ≤ 3584 ∧
    3584 < (List.replicate 3585 (0xFF : Byte)).length :=
  ⟨rfl, by rw [List.length_replicate], by rw [List.length_replicate]; decide⟩

theorem witness_OnlyResetLeavesHalted :
    stopped.status = .halted .sentinel ∧ (∃ t r, hostOp .reset stopped = .next (t, r)) ∧
    (∃ t r, hostOp .tickDelay stopped = .next (t, r)) ∧
    ∃ t r, hostOp (.step ⟨0, none, 0⟩) stopped = .next (t, r) := ⟨rfl, ⟨_, _, rfl⟩, ⟨_, _, rfl⟩, _, _, rfl⟩

theorem witness_ProgramTooLargeIsOnlyReported :
    ∃ t r, hostOp (.loadProgram (List.replicate 3585 0)) stopped = .next (t, r) := ⟨_, _, rfl⟩

theorem witness_HostStepUsesItsInputs :
    atPcHi.status = .running ∧ atPcHi.fetch = .ok 0x6A11 ∧
    ∃ u, exec (decode 0x6A11) { atPcHi with inputs := ⟨0, none, 0⟩ :: atPcHi.inputs } = .next u :=
  ⟨rfl, rfl, exec_next _ _⟩

/-- Lines of the listings of P1, P2 and P3 (spec/95_test_vectors.md). -/
theorem test_assembly :
    (decode 0x6005).assembly = "LD V0,0x05" ∧ (decode 0x220E).assembly = "CALL 0x20E" ∧
    (decode 0xA300).assembly = "LD I,0x300" ∧ (decode 0xF265).assembly = "LD V2,[I]" ∧
    (decode 0x8AF0).assembly = "LD VA,VF" ∧ (decode 0x0000).assembly = "HALT" := by decide

/-- Codes 0 to 5 of R220. -/
theorem test_codes :
    statusCode .running = 0 ∧ statusCode (.halted .sentinel) = 1 ∧ statusCode (.halted .stackOverflow) = 2 ∧
    statusCode (.halted .stackUnderflow) = 3 ∧ statusCode (.halted .addressingFault) = 4 ∧
    loadCode .programTooLarge = 5 := by decide

end Sys2Proof.Tests
end

section
/-! SUPPORT. The display's read port (spec/45_draw.md R209). -/

namespace Sys2Proof.Machine

/-- The place of a pixel in row-major order, written as R209 counts it: whole rows first, then the column. -/
theorem val_mkDivMod_row_column (y : Row) (x : Column) : (Fin.mkDivMod y x).val = y.val * 64 + x.val := by
  rw [Fin.coe_mkDivMod, Nat.mul_comm]

/-- Row-major order: element `k` of the full query is the pixel in column `k % 64` of row `k / 64`. -/
theorem State.queryAll_eq_ofFn (s : State) :
    s.queryAll = List.ofFn fun k : Fin (32 * 64) => s.query k.modNat k.divNat := by
  simp only [List.ofFn_mul, ← val_mkDivMod_row_column, Fin.eta, Fin.modNat_mkDivMod, Fin.divNat_mkDivMod,
    List.ofFn_eq_map]
  rfl

theorem State.length_queryAll (s : State) : s.queryAll.length = 2048 := by
  rw [s.queryAll_eq_ofFn, List.length_ofFn]

theorem State.getElem?_queryAll (s : State) (x : Column) (y : Row) :
    s.queryAll[y.val * 64 + x.val]? = some (s.query x y) := by
  rw [s.queryAll_eq_ofFn, ← val_mkDivMod_row_column, List.getElem?_ofFn, dif_pos (Fin.mkDivMod y x).isLt,
    Fin.modNat_mkDivMod, Fin.divNat_mkDivMod]

/-- Settles O57: both queries answer in the state they are asked in, and the full query is the pixels row by row. -/
theorem displayQueriesReadThePixels : Obligations.DisplayQueriesReadThePixels :=
  fun s => ⟨fun _ _ => rfl, s.queryAll, rfl, s.length_queryAll, s.getElem?_queryAll⟩

end Sys2Proof.Machine
end

section
/-! SUPPORT. When an instruction and a cycle halt the machine, and why (spec/60_exceptions.md R220 to R225). -/

namespace Sys2Proof.Machine

/-- An instruction records the reason the tables of R221 to R225 give it, and else leaves `STATUS` alone. -/
theorem exec_status {i : Instr} {s t : State} (h : exec i s = .next t) :
    t.status = (faultOf i s).elim s.status .halted := by
  cases i
  case call nnn =>
    obtain ⟨hs, rfl⟩ | ⟨hs, rfl⟩ := execCall_cases h
    · rw [faultOf, if_pos hs]; rfl
    · rw [faultOf, if_neg hs.ne]; rfl
  case ret =>
    obtain ⟨hs, rfl⟩ | ⟨hs, rfl⟩ := execRet_cases h
    · rw [faultOf, if_pos hs]; rfl
    · rw [faultOf, if_neg hs]; rfl
  case ldB x =>
    obtain ⟨hs, rfl⟩ | ⟨hs, rfl⟩ := execLdB_cases h
    · rw [faultOf, if_pos hs]; rfl
    · rw [faultOf, if_neg hs.not_gt]; rfl
  case storeRegs x =>
    obtain ⟨hs, rfl⟩ | ⟨hs, rfl⟩ := execStoreRegs_cases h
    · rw [faultOf, if_pos hs]; rfl
    · rw [faultOf, if_neg hs.not_gt]; rfl
  case loadRegs x =>
    obtain ⟨hs, rfl⟩ | ⟨hs, rfl⟩ := execLoadRegs_cases h
    · rw [faultOf, if_pos hs]; rfl
    · rw [faultOf, if_neg hs.not_gt]; rfl
  case drw x y n =>
    obtain ⟨hn, hs, rfl⟩ | ⟨hs, rfl⟩ := execDrw_cases h
    · rw [faultOf, if_pos ⟨Nat.pos_of_ne_zero hn, hs⟩]; rfl
    · rw [faultOf, if_neg (by omega)]; rfl
  case ldVxK x =>
    simp only [exec, execLdVxK, State.commit_ok, Host.Outcome.next.injEq] at h
    subst h
    split <;> rfl
  all_goals
    cases h
    rfl

/-- `StackUnderflow` stands in one row of the tables: `RET` (R222). -/
theorem faultOf_eq_stackUnderflow_iff {i : Instr} {s : State} :
    faultOf i s = some .stackUnderflow ↔ i = .ret ∧ s.sp.val = 0 := by
  cases i <;> simp [faultOf]

theorem State.pending_of_fetch_ok {s : State} {w : Word} (h : s.fetch = .ok w) : s.pending = some (decode w) := by
  simp [State.pending, h]

theorem State.pending_eq_none {s : State} (h : fetchable s.pc = false) : s.pending = none := by
  simp [State.pending, State.fetch, h]

/-- A cycle of a running machine halts it with the reason of the instruction at `PC`, or with `AddressingFault` where
there is none to fetch (R228). -/
theorem step_halts_iff {s t : State} {r : HaltReason} (hs : s.status = .running) (h : step s = .next t) :
    t.status = .halted r ↔ s.pending.elim (some .addressingFault) (faultOf · s) = some r := by
  obtain ⟨_, hr, -⟩ | ⟨-, hf, rfl⟩ | ⟨w, u, -, -, hf, hu, rfl⟩ := step_cases h
  · simp [hs] at hr
  · simp [State.pending_eq_none hf]
  · simp only [State.endCycle_status, exec_status hu, State.pending_of_fetch_ok hf, Option.elim_some, hs]
    cases faultOf (decode w) s <;> simp

/-- Settles O12: of the reasons a cycle can halt for, `StackUnderflow` is the one of `RET` on an empty stack alone. -/
theorem stackUnderflowExactlyAtEmptyRet : Obligations.StackUnderflowExactlyAtEmptyRet := by
  intro s t hs h
  rw [step_halts_iff hs h]
  cases s.pending with
  | none => simp
  | some i => simp [faultOf_eq_stackUnderflow_iff]

end Sys2Proof.Machine
end

section
/-! SUPPORT. What a load and a requested cycle report to the host (spec/60_exceptions.md R224, R238). -/

namespace Sys2Proof.Machine

/-! ### `LoadProgram` -/

theorem State.loadProgram_tooLarge (s : State) {b : List Byte} (h : 3584 < b.length) :
    s.loadProgram b = (s, .programTooLarge) :=
  if_pos h

theorem State.loadProgram_fits (s : State) {b : List Byte} (h : b.length ≤ 3584) :
    s.loadProgram b = (s.setMem (s.mem.writeList Config.progBase b), .ok) :=
  if_neg (Nat.not_lt.2 h)

theorem hostOp_loadProgram (b : List Byte) (s : State) :
    hostOp (.loadProgram b) s = .next ((s.loadProgram b).1, .load (s.loadProgram b).2) := rfl

/-- Settles O55, by the two cases of a load: refused whole, or copied into memory alone. -/
theorem programTooLargeIsOnlyReported : Obligations.ProgramTooLargeIsOnlyReported := by
  intro b s t r h
  rw [hostOp_loadProgram] at h
  obtain hb | hb := Nat.lt_or_ge 3584 b.length
  · rw [s.loadProgram_tooLarge hb] at h
    cases h
    simp [hb]
  · rw [s.loadProgram_fits hb] at h
    cases h
    simp [hb]

/-! ### The result of a step -/

/-- The `STATUS` each result tells the host of (R238). -/
def StepResult.status : StepResult → Status
  | .ok => .running
  | .halt => .halted .sentinel
  | .stackOverflow => .halted .stackOverflow
  | .stackUnderflow => .halted .stackUnderflow
  | .addressingFault => .halted .addressingFault

theorem StepResult.status_stepResult : Function.LeftInverse StepResult.status stepResult
  | .running | .halted .sentinel | .halted .stackOverflow | .halted .stackUnderflow | .halted .addressingFault => rfl

theorem StepResult.stepResult_status : Function.RightInverse StepResult.status stepResult
  | .ok | .halt | .stackOverflow | .stackUnderflow | .addressingFault => rfl

/-- A result is reported exactly when `STATUS` is the one it stands for. -/
theorem stepResult_eq_iff {st : Status} {r : StepResult} : stepResult st = r ↔ st = r.status :=
  ⟨fun h => h ▸ (StepResult.status_stepResult st).symm, fun h => h ▸ StepResult.stepResult_status r⟩

theorem step_next (s : State) : ∃ t, step s = .next t := by
  cases hs : s.status with
  | halted r => exact ⟨s, step_halted hs⟩
  | running =>
    obtain ⟨-, hf⟩ | ⟨-, hf⟩ := s.fetch_cases
    · obtain ⟨t, ht⟩ := exec_next (decode _) s
      exact ⟨_, step_runs hs hf ht⟩
    · exact ⟨_, step_fetch_fault hs hf⟩

theorem State.hostStep_next (s : State) (e : EnvInput) : ∃ t, s.hostStep e = .next t := by
  obtain ⟨t, ht⟩ := step_next { s with inputs := e :: s.inputs }
  exact ⟨_, by rw [State.hostStep, ht]⟩

theorem hostOp_step {s t : State} {e : EnvInput} (h : s.hostStep e = .next t) :
    hostOp (.step e) s = .next (t, .stepped (stepResult t.status)) := by
  rw [hostOp, h]

/-- Settles O59: a requested cycle always answers, and results and values of `STATUS` correspond one to one. -/
theorem stepReportsItsResult : Obligations.StepReportsItsResult := by
  intro s e
  obtain ⟨t, ht⟩ := s.hostStep_next e
  exact ⟨t, stepResult t.status, hostOp_step ht, stepResult_eq_iff, stepResult_eq_iff, stepResult_eq_iff,
    stepResult_eq_iff, stepResult_eq_iff⟩

end Sys2Proof.Machine
end

section
/-! SUPPORT. The encoding: a word is put together again from its fields, the two dispatches of spec/30_encoding.md
(R73 to R78 and R86) agree, and decoding and encoding undo each other (R79, R82). -/

namespace Sys2Proof

/-! ### A word from its fields (R71, R72) -/

theorem encNnn_fields {w : Word} {f : BitVec 4} (h : (fieldFam w).toNat = f.toNat) : encNnn f (fieldNnn w) = w := by
  apply BitVec.eq_of_toNat_eq
  rw [encNnn_toNat, fieldNnn_toNat, ← h, fieldFam_toNat]
  omega

theorem encXkk_fields {w : Word} {f : BitVec 4} (h : (fieldFam w).toNat = f.toNat) :
    encXkk f (fieldX w) (fieldKk w) = w := by
  apply BitVec.eq_of_toNat_eq
  rw [encXkk_toNat, fieldX_val, fieldKk_toNat, ← h, fieldFam_toNat]
  omega

theorem encXyn_fields {w : Word} {f : BitVec 4} (h : (fieldFam w).toNat = f.toNat) :
    encXyn f (fieldX w) (fieldY w) (fieldN w) = w := by
  apply BitVec.eq_of_toNat_eq
  rw [encXyn_toNat, fieldX_val, fieldY_val, fieldN_toNat, ← h, fieldFam_toNat]
  omega

/-- Format `XSS`: the low byte is a sub-code. -/
theorem encXkk_subcode {w : Word} {f : BitVec 4} {kk : Byte} (h : (fieldFam w).toNat = f.toNat)
    (hk : (fieldKk w).toNat = kk.toNat) : encXkk f (fieldX w) kk = w := by
  rw [← BitVec.eq_of_toNat_eq hk, encXkk_fields h]

/-- Format `XYS`: the low nibble is a sub-code. -/
theorem encXyn_subcode {w : Word} {f n : BitVec 4} (h : (fieldFam w).toNat = f.toNat)
    (hn : (fieldN w).toNat = n.toNat) : encXyn f (fieldX w) (fieldY w) n = w := by
  rw [← BitVec.eq_of_toNat_eq hn, encXyn_fields h]

/-! ### The words of no other row (R82) -/

/-- The table of R82 by the keys of the second-level dispatch (R74 to R77). -/
theorem isUnknownWord_iff (w : Word) : isUnknownWord w = true ↔
    ((fieldFam w).toNat = 0x0 ∧ w ≠ 0x0000#16 ∧ w ≠ 0x00E0#16 ∧ w ≠ 0x00EE#16) ∨
    ((fieldFam w).toNat = 0x8 ∧ (fieldN w).toNat ∉ [0x0, 0x1, 0x2, 0x3, 0x4, 0x5, 0x6, 0x7, 0xE]) ∨
    ((fieldFam w).toNat = 0xE ∧ (fieldKk w).toNat ∉ [0x9E, 0xA1]) ∨
    ((fieldFam w).toNat = 0xF ∧ (fieldKk w).toNat ∉ [0x07, 0x0A, 0x15, 0x18, 0x1E, 0x29, 0x33, 0x55, 0x65]) := by
  have hn : (fieldN w).toNat ∈ [0x8, 0x9, 0xA, 0xB, 0xC, 0xD, 0xF] ↔
      (fieldN w).toNat ∉ [0x0, 0x1, 0x2, 0x3, 0x4, 0x5, 0x6, 0x7, 0xE] := by
    have := (fieldN w).isLt
    simp only [List.mem_cons, List.not_mem_nil, or_false]
    omega
  have hw : w.toNat ∉ [0x0000, 0x00E0, 0x00EE] ↔ w ≠ 0x0000#16 ∧ w ≠ 0x00E0#16 ∧ w ≠ 0x00EE#16 := by
    simp [← BitVec.toNat_inj]
  simp only [fieldN] at hn
  simp only [isUnknownWord, fieldFam, fieldKk, fieldN, Bool.or_eq_true, Bool.and_eq_true, beq_iff_eq,
    Bool.not_eq_true', List.contains_eq_mem, decide_eq_true_eq, decide_eq_false_iff_not, hn, hw, or_assoc]

/-- The decoder gives every word of R82 the row `UNKNOWN`. -/
theorem decode_unknown {w : Word} (h : isUnknownWord w = true) : decode w = .unknown w := by
  rw [isUnknownWord_iff] at h
  obtain ⟨hf, h0, h1, h2⟩ | ⟨hf, hn⟩ | ⟨hf, hk⟩ | ⟨hf, hk⟩ := h
  · simp [decode, hf, decodeFam0, h0, h1, h2]
  · simp only [decode, hf, decodeFam8]
    split <;> simp_all
  · simp only [decode, hf, decodeFamE]
    split <;> simp_all
  · simp only [decode, hf, decodeFamF]
    split <;> simp_all

/-! ### Decoding what was encoded -/

theorem decode_encode {i : Instr} (h : i.wellFormed = true) : decode (encode i) = i := by
  cases i
  case halt | cls | ret => rfl
  case unknown w => exact decode_unknown h
  all_goals simp [encode, decode, decodeFam8, decodeFamE, decodeFamF]

/-- Settles O2: the fields of each format read back, and a word is its two bytes. -/
theorem decodeInvertsEncode : Obligations.DecodeInvertsEncode := fun i h =>
  ⟨decode_encode h, fun rest => by
    rw [encodeBytes, List.cons_append, List.cons_append, List.nil_append, decodeBytes, opcodeOf_bytes,
      decode_encode h]⟩

/-! ### Encoding what was decoded -/

theorem decodeFam0_correct {w : Word} (hf : (fieldFam w).toNat = 0x0) :
    (decodeFam0 w).wellFormed = true ∧ encode (decodeFam0 w) = w := by
  rw [decodeFam0]
  split_ifs with h0 h1 h2
  · exact ⟨rfl, h0.symm⟩
  · exact ⟨rfl, h1.symm⟩
  · exact ⟨rfl, h2.symm⟩
  · exact ⟨(isUnknownWord_iff w).2 (.inl ⟨hf, h0, h1, h2⟩), rfl⟩

theorem decodeFam8_correct {w : Word} (hf : (fieldFam w).toNat = 0x8) :
    (decodeFam8 w).wellFormed = true ∧ encode (decodeFam8 w) = w := by
  rw [decodeFam8]
  split
  case h_10 => exact ⟨(isUnknownWord_iff w).2 (.inr (.inl ⟨hf, by simp_all⟩)), rfl⟩
  all_goals exact ⟨rfl, encXyn_subcode hf ‹_›⟩

theorem decodeFamE_correct {w : Word} (hf : (fieldFam w).toNat = 0xE) :
    (decodeFamE w).wellFormed = true ∧ encode (decodeFamE w) = w := by
  rw [decodeFamE]
  split
  case h_3 => exact ⟨(isUnknownWord_iff w).2 (.inr (.inr (.inl ⟨hf, by simp_all⟩))), rfl⟩
  all_goals exact ⟨rfl, encXkk_subcode hf ‹_›⟩

theorem decodeFamF_correct {w : Word} (hf : (fieldFam w).toNat = 0xF) :
    (decodeFamF w).wellFormed = true ∧ encode (decodeFamF w) = w := by
  rw [decodeFamF]
  split
  case h_10 => exact ⟨(isUnknownWord_iff w).2 (.inr (.inr (.inr ⟨hf, by simp_all⟩))), rfl⟩
  all_goals exact ⟨rfl, encXkk_subcode hf ‹_›⟩

/-- Settles O3, family by family: a format is put together again from its fields, a dispatched family is its own
lemma. -/
theorem encodeInvertsDecode : Obligations.EncodeInvertsDecode := by
  intro w
  rw [decode]
  split
  case h_1 hf => exact decodeFam0_correct hf
  case h_9 hf => exact decodeFam8_correct hf
  case h_15 hf => exact decodeFamE_correct hf
  case h_16 =>
    have := (fieldFam w).isLt
    simp only [imp_false] at *
    exact decodeFamF_correct (by omega)
  case h_2 hf | h_3 hf | h_11 hf | h_12 hf => exact ⟨rfl, encNnn_fields hf⟩
  case h_6 hf | h_10 hf | h_14 hf => exact ⟨rfl, encXyn_fields hf⟩
  all_goals exact ⟨rfl, encXkk_fields ‹_›⟩

/-! ### The match and mask table (R86) -/

/-- A match and mask test compares numbers. -/
theorem OpcodeRow.takes_eq (r : OpcodeRow) (w : Word) : r.takes w = decide ((w &&& r.mask).toNat = r.code.toNat) := by
  rw [takes, Bool.beq_eq_decide_eq, decide_eq_decide, BitVec.toNat_inj]

theorem and_mask_family (w : Word) : (w &&& 0xF000).toNat = (fieldFam w).toNat * 4096 := by
  have h : w &&& 0xF000 = encNnn (fieldFam w) 0 := by
    apply BitVec.eq_of_getLsbD_eq
    intro k hk
    rw [encNnn, BitVec.getLsbD_append]
    interval_cases k <;> simp [fieldFam]
  rw [h, encNnn_toNat]
  simp

theorem and_mask_nibble (w : Word) :
    (w &&& 0xF00F).toNat = (fieldFam w).toNat * 4096 + (fieldN w).toNat := by
  have h : w &&& 0xF00F = encXyn (fieldFam w) 0 0 (fieldN w) := by
    apply BitVec.eq_of_getLsbD_eq
    intro k hk
    rw [encXyn, BitVec.getLsbD_append, BitVec.getLsbD_append, BitVec.getLsbD_append]
    interval_cases k <;> simp [fieldFam, fieldN]
  rw [h, encXyn_toNat]
  simp

theorem and_mask_lowByte (w : Word) :
    (w &&& 0xF0FF).toNat = (fieldFam w).toNat * 4096 + (fieldKk w).toNat := by
  have h : w &&& 0xF0FF = encXkk (fieldFam w) 0 (fieldKk w) := by
    apply BitVec.eq_of_getLsbD_eq
    intro k hk
    rw [encXkk, BitVec.getLsbD_append, BitVec.getLsbD_append]
    interval_cases k <;> simp [fieldFam, fieldKk]
  rw [h, encXkk_toNat]
  simp

theorem and_mask_whole (w : Word) :
    (w &&& 0xFFFF).toNat = (fieldFam w).toNat * 4096 + (fieldNnn w).toNat := by
  have h : w &&& 0xFFFF = w := BitVec.and_allOnes
  rw [h, fieldFam_toNat, fieldNnn_toNat]
  omega

section
variable (code : Word) (kind : Kind) (w : Word)

theorem takes_family : OpcodeRow.takes ⟨code, 0xF000, kind⟩ w =
    decide ((fieldFam w).toNat = code.toNat / 4096 ∧ code.toNat % 4096 = 0) := by
  rw [OpcodeRow.takes_eq, decide_eq_decide, and_mask_family]
  dsimp only
  omega

theorem takes_nibble : OpcodeRow.takes ⟨code, 0xF00F, kind⟩ w =
    decide ((fieldFam w).toNat = code.toNat / 4096 ∧ (fieldN w).toNat = code.toNat % 4096) := by
  have := (fieldN w).isLt
  rw [OpcodeRow.takes_eq, decide_eq_decide, and_mask_nibble]
  dsimp only
  omega

theorem takes_lowByte : OpcodeRow.takes ⟨code, 0xF0FF, kind⟩ w =
    decide ((fieldFam w).toNat = code.toNat / 4096 ∧ (fieldKk w).toNat = code.toNat % 4096) := by
  have := (fieldKk w).isLt
  rw [OpcodeRow.takes_eq, decide_eq_decide, and_mask_lowByte]
  dsimp only
  omega

theorem takes_whole : OpcodeRow.takes ⟨code, 0xFFFF, kind⟩ w =
    decide ((fieldFam w).toNat = code.toNat / 4096 ∧ (fieldNnn w).toNat = code.toNat % 4096) := by
  have := (fieldNnn w).isLt
  rw [OpcodeRow.takes_eq, decide_eq_decide, and_mask_whole]
  dsimp only
  omega

end

theorem kindOf_decode (w : Word) : kindOf (decode w) = decoderKind w := by
  simp only [decoderKind, opcodeRows, List.cons_append, List.nil_append, List.find?_cons, List.find?_nil,
    takes_family, takes_nibble, takes_lowByte, takes_whole]
  rw [decode]
  split
  case h_1 hf =>
    have hw : w.toNat = (fieldNnn w).toNat := by
      rw [fieldFam_toNat] at hf
      rw [fieldNnn_toNat]
      omega
    simp only [decodeFam0, ← BitVec.toNat_inj, hw]
    split_ifs <;> simp_all [kindOf]
  case h_9 hf =>
    rw [decodeFam8]
    split <;> simp_all [kindOf]
  case h_15 hf =>
    rw [decodeFamE]
    split <;> simp_all [kindOf]
  case h_16 =>
    have := (fieldFam w).isLt
    have hf : (fieldFam w).toNat = 0xF := by
      simp only [imp_false] at *
      omega
    rw [decodeFamF]
    split <;> simp_all [kindOf]
  all_goals simp [kindOf, *]

/-- No two rows agree where both of their masks look. -/
theorem opcodeRows_disjoint :
    ∀ r ∈ opcodeRows, ∀ q ∈ opcodeRows, r.code &&& q.mask = q.code &&& r.mask → r = q := by
  decide

/-- Settles O4: two rows that take one word agree under both of their masks. -/
theorem dispatchAgreesWithOpcodeTable : Obligations.DispatchAgreesWithOpcodeTable := by
  refine ⟨kindOf_decode, fun w r hr q hq hwr hwq => opcodeRows_disjoint r hr q hq ?_⟩
  rw [OpcodeRow.takes, beq_iff_eq] at hwr hwq
  calc r.code &&& q.mask = w &&& r.mask &&& q.mask := by rw [hwr]
    _ = w &&& q.mask &&& r.mask := by rw [BitVec.and_assoc, BitVec.and_comm r.mask, ← BitVec.and_assoc]
    _ = q.code &&& r.mask := by rw [hwq]

/-! ### Words of the specification and ignored bits -/

/-- Settles O1, by running the decoder on each of the words. -/
theorem specWordsDecode : Obligations.SpecWordsDecode :=
  ⟨rfl, rfl, rfl, rfl, rfl, rfl, rfl, rfl, rfl, rfl, rfl, rfl, rfl, rfl, rfl⟩

/-- Settles O5: the meanings of the skips and the shifts do not take the bits that the canonical form clears. -/
theorem canonicalFormMeansTheSame : Obligations.CanonicalFormMeansTheSame := by
  intro i
  cases i <;> exact ⟨id, fun _ => rfl⟩

end Sys2Proof
end

section
/-! SUPPORT. What an instruction can do, said once: it halts the machine for the reason of the tables of
spec/60_exceptions.md, or it completes with one update of the state. Who writes what and who reads what follows. -/

namespace Sys2Proof.Machine

/-- The state an instruction leaves when it does not halt the machine, one update for each row of the opcode map. -/
def completed : Instr → State → State
  | .halt, s => s
  | .cls, s => (s.setFb FrameBuffer.clear).advance
  | .ret, s => State.setPc { s with sp := ⟨s.sp.val - 1, by omega⟩ } s.stack[s.sp.val - 1]
  | .jp nnn, s => s.setPc (addrOf nnn)
  | .call nnn, s =>
    State.setPc { s with stack := s.stack.setIfInBounds s.sp.val s.nextPc, sp := s.sp + 1 } (addrOf nnn)
  | .jpV0 nnn, s => s.setPc (addrOf nnn + widen (s.reg 0))
  | .unknown _, s => s.advance
  | .seImm x kk, s => s.skip (s.reg x == kk)
  | .sneImm x kk, s => s.skip (s.reg x != kk)
  | .seReg x y _, s => s.skip (s.reg x == s.reg y)
  | .sneReg x y _, s => s.skip (s.reg x != s.reg y)
  | .skp x, s => s.skip (s.keyHeld (s.reg x))
  | .sknp x, s => s.skip (!s.keyHeld (s.reg x))
  | .ldImm x kk, s => (s.setReg x kk).advance
  | .addImm x kk, s => (s.setReg x (s.reg x + kk)).advance
  | .ldReg x y, s => (s.setReg x (s.reg y)).advance
  | .orReg x y, s => (s.setReg x (s.reg x ||| s.reg y)).advance
  | .andReg x y, s => (s.setReg x (s.reg x &&& s.reg y)).advance
  | .xorReg x y, s => (s.setReg x (s.reg x ^^^ s.reg y)).advance
  | .addReg x y, s => (s.setRegFlag x (s.reg x + s.reg y) (carryFlag (s.reg x) (s.reg y))).advance
  | .sub x y, s => (s.setRegFlag x (s.reg x - s.reg y) (greaterFlag (s.reg x) (s.reg y))).advance
  | .shr x _, s => (s.setRegFlag x (s.reg x >>> 1) (lowBitFlag (s.reg x))).advance
  | .subn x y, s => (s.setRegFlag x (s.reg y - s.reg x) (greaterFlag (s.reg y) (s.reg x))).advance
  | .shl x _, s => (s.setRegFlag x (s.reg x <<< 1) (highBitFlag (s.reg x))).advance
  | .ldI nnn, s => (s.setI (addrOf nnn)).advance
  | .addI x, s => (s.setI (s.i + widen (s.reg x))).advance
  | .ldF x, s => (s.setI (glyphAddr (s.reg x))).advance
  | .ldB x, s => (s.setMem (s.mem.writeList s.i.toNat (bcdDigits (s.reg x)))).advance
  | .storeRegs x, s => (s.setMem (s.mem.writeList s.i.toNat (s.regsTo x))).advance
  | .loadRegs x, s => (s.setRegs (s.mem.readList s.i.toNat (x.val + 1))).advance
  | .drw x y n, s =>
    let d := s.fb.draw (s.reg x) (s.reg y) (s.mem.readList s.i.toNat n.val)
    ((s.setFb d.1).setReg regF (flag d.2)).advance
  | .rnd x kk, s => (s.setReg x (s.input.randByte &&& kk)).advance
  | .ldVxDt x, s => (s.setReg x s.dt).advance
  | .ldVxK x, s => s.input.keyEvent.elim s fun k => (s.setReg x (keyValue k)).advance
  | .ldDtVx x, s => (s.setDt (s.reg x)).advance
  | .ldStVx x, s => (s.setSt (s.reg x)).advance

/-! ### The two outcomes of an instruction -/

theorem execLdVxK_eq (x : RegIx) (s : State) :
    execLdVxK x s = .next (s.input.keyEvent.elim s fun k => (s.setReg x (keyValue k)).advance) := by
  rw [execLdVxK]
  cases s.input.keyEvent with
  | none =>
    have h : s.nextPc - 2 = s.pc := BitVec.add_sub_cancel _ _
    simp only [h]
    rfl
  | some k => rfl

/-- A call with room on the stack, as `completed` writes it. -/
theorem completed_call (nnn : BitVec 12) (s : State) (h : s.sp.val < 16) :
    completed (.call nnn) s = State.setPc { s with
      stack := s.stack.set s.sp.val s.nextPc, sp := ⟨s.sp.val + 1, by omega⟩ } (addrOf nnn) := by
  have hsp : s.sp + 1 = ⟨s.sp.val + 1, by omega⟩ := Fin.ext (Fin.val_add_one_of_lt (Fin.lt_def.2 h))
  have hstack : s.stack.setIfInBounds s.sp.val s.nextPc = s.stack.set s.sp.val s.nextPc :=
    Vector.ext fun k hk => by rw [Vector.getElem_setIfInBounds, Vector.getElem_set]
  rw [completed, hsp, hstack]

/-- Every meaning is the halt of the tables or its completion. -/
theorem exec_eq (i : Instr) (s : State) : exec i s = .next ((faultOf i s).elim (completed i s) s.halt) := by
  cases i
  case call nnn =>
    by_cases hs : s.sp.val = 16
    · rw [faultOf, if_pos hs]
      exact execCall_fault nnn s hs
    · have hlt : s.sp.val < 16 := by omega
      rw [faultOf, if_neg hs, Option.elim_none, completed_call nnn s hlt]
      exact execCall_ok nnn s hlt
  case ret =>
    by_cases hs : s.sp.val = 0
    · rw [faultOf, if_pos hs]
      exact execRet_fault s hs
    · rw [faultOf, if_neg hs]
      exact execRet_ok s hs
  case ldB x =>
    by_cases hs : s.i.toNat + 2 > 0xFFF
    · rw [faultOf, if_pos hs]
      exact execLdB_fault x s hs
    · rw [faultOf, if_neg hs]
      exact execLdB_ok x s (not_lt.1 hs)
  case storeRegs x =>
    by_cases hs : s.i.toNat + x.val > 0xFFF
    · rw [faultOf, if_pos hs]
      exact execStoreRegs_fault x s hs
    · rw [faultOf, if_neg hs]
      exact execStoreRegs_ok x s (not_lt.1 hs)
  case loadRegs x =>
    by_cases hs : s.i.toNat + x.val > 0xFFF
    · rw [faultOf, if_pos hs]
      exact execLoadRegs_fault x s hs
    · rw [faultOf, if_neg hs]
      exact execLoadRegs_ok x s (not_lt.1 hs)
  case drw x y n =>
    by_cases hs : n.val > 0 ∧ s.i.toNat + n.val - 1 > 0xFFF
    · rw [faultOf, if_pos hs]
      exact execDrw_fault x y n s (by omega) hs.2
    · rw [faultOf, if_neg hs]
      exact execDrw_ok x y n s (by omega)
  case ldVxK x => exact execLdVxK_eq x s
  all_goals rfl

theorem exec_halts {i : Instr} {s : State} {r : HaltReason} (h : faultOf i s = some r) :
    exec i s = .next (s.halt r) := by
  rw [exec_eq, h]
  rfl

theorem exec_completes {i : Instr} {s : State} (h : faultOf i s = none) : exec i s = .next (completed i s) := by
  rw [exec_eq, h]
  rfl

/-- All that an instruction can do. -/
theorem exec_cases {i : Instr} {s t : State} (h : exec i s = .next t) :
    (∃ r, faultOf i s = some r ∧ t = s.halt r) ∨ (faultOf i s = none ∧ t = completed i s) := by
  cases hf : faultOf i s with
  | none =>
    rw [exec_completes hf] at h
    exact .inr ⟨rfl, by simpa using h.symm⟩
  | some r =>
    rw [exec_halts hf] at h
    exact .inl ⟨r, rfl, by simpa using h.symm⟩

/-- Settles O9: the two outcomes, the second of which records no reason. -/
theorem instructionsFaultExactlyAsListed : Obligations.InstructionsFaultExactlyAsListed := by
  refine fun i s => ⟨fun r h => exec_halts h, fun h => ⟨_, exec_completes h, ?_⟩⟩
  rw [exec_status (exec_completes h), h]
  rfl

theorem faultOf_call_eq_none_iff {nnn : BitVec 12} {s : State} : faultOf (.call nnn) s = none ↔ s.sp.val < 16 := by
  have := s.sp.isLt
  simp only [faultOf, ite_eq_right_iff, reduceCtorEq, imp_false]
  omega

theorem faultOf_ret_eq_none_iff {s : State} : faultOf .ret s = none ↔ s.sp.val ≠ 0 := by
  simp [faultOf]

/-! ### Who writes what (spec/10_state.md) -/

/-- A halt keeps every part but `STATUS`, so an instruction keeps what its completion keeps. -/
theorem exec_keeps {α : Type} {part : State → α} {i : Instr} {s t : State} (h : exec i s = .next t)
    (halt : ∀ r, part (s.halt r) = part s) (complete : part (completed i s) = part s) : part t = part s := by
  obtain ⟨r, -, rfl⟩ | ⟨-, rfl⟩ := exec_cases h
  · exact halt r
  · exact complete

/-- `LD Vx,K` keeps what a register write and the advance keep. -/
theorem completed_ldVxK_keeps {α : Type} (part : State → α) (x : RegIx) (s : State)
    (h : ∀ b, part (s.setReg x b).advance = part s) : part (completed (.ldVxK x) s) = part s := by
  rw [completed]
  cases s.input.keyEvent with
  | none => rfl
  | some k => exact h _

/-- Registers loaded from memory, and those above the last one (R175). -/
theorem State.reg_setRegs_readList (s : State) (a n : Nat) (j : RegIx) :
    (s.setRegs (s.mem.readList a n)).reg j = if j.val < n then s.mem.read (a + j.val) else s.reg j := by
  rw [State.reg_setRegs, List.getD_eq_getElem?_getD]
  split
  case isTrue h => rw [List.getElem?_eq_getElem (by simpa using h), Memory.getElem_readList, Option.getD_some]
  case isFalse h => rw [List.getElem?_eq_none (by simpa using h), Option.getD_none]

theorem completed_reg {i : Instr} {j : RegIx} (s : State) (h : writesReg i j = false) :
    (completed i s).reg j = s.reg j := by
  cases i
  case ldImm x _ | addImm x _ | rnd x _ | ldVxDt x | ldReg x _ | orReg x _ | andReg x _ | xorReg x _ =>
    exact (onlyReg_setReg s x _).1 j h
  case addReg x _ | sub x _ | shr x _ | subn x _ | shl x _ => exact (onlyReg_setRegFlag s x _ _).1 j h
  case ldVxK x => exact completed_ldVxK_keeps (State.reg · j) x s fun b => (onlyReg_setReg s x b).1 j h
  case drw x y n => exact (onlyReg_setReg (s.setFb _) regF _).1 j h
  case loadRegs x =>
    have hj : x.val < j.val := by simpa [writesReg] using h
    rw [completed, State.advance_reg, State.reg_setRegs_readList, if_neg (by omega)]
  all_goals rfl

/-- Settles O18: a completion writes the registers of the table, a halt none. -/
theorem registersWrittenOnlyAsListed : Obligations.RegistersWrittenOnlyAsListed :=
  fun _ s _ j h hj => exec_keeps (part := (State.reg · j)) h (fun _ => rfl) (completed_reg s hj)

theorem completed_fb {i : Instr} (s : State) (hc : i ≠ .cls) (hd : ∀ x y n, i ≠ .drw x y n) :
    (completed i s).fb = s.fb := by
  cases i
  case cls => exact absurd rfl hc
  case drw x y n => exact absurd rfl (hd x y n)
  case ldVxK x => exact completed_ldVxK_keeps State.fb x s fun _ => rfl
  case loadRegs x => simp only [completed, State.advance_fb, State.setRegs_fb]
  all_goals rfl

/-- Settles O20: every other completion leaves the whole frame buffer. -/
theorem displayWrittenOnlyByDrawAndClear : Obligations.DisplayWrittenOnlyByDrawAndClear :=
  fun _ s _ h hc hd => displayKept_of_eq (exec_keeps h (fun _ => rfl) (completed_fb s hc hd))

theorem completed_mem {i : Instr} (s : State) (hb : ∀ x, i ≠ .ldB x) (hs : ∀ x, i ≠ .storeRegs x) :
    (completed i s).mem = s.mem := by
  cases i
  case ldB x => exact absurd rfl (hb x)
  case storeRegs x => exact absurd rfl (hs x)
  case ldVxK x => exact completed_ldVxK_keeps State.mem x s fun _ => rfl
  case loadRegs x => simp only [completed, State.advance_mem, State.setRegs_mem]
  all_goals rfl

/-- Settles O21: every other completion leaves the whole memory. -/
theorem memoryWrittenOnlyByTheTwoStores : Obligations.MemoryWrittenOnlyByTheTwoStores :=
  fun _ s _ h hb hs => memoryKept_of_eq (exec_keeps h (fun _ => rfl) (completed_mem s hb hs))

theorem completed_i {i : Instr} (s : State) (hl : ∀ nnn, i ≠ .ldI nnn) (ha : ∀ x, i ≠ .addI x)
    (hf : ∀ x, i ≠ .ldF x) : (completed i s).i = s.i := by
  cases i
  case ldI nnn => exact absurd rfl (hl nnn)
  case addI x => exact absurd rfl (ha x)
  case ldF x => exact absurd rfl (hf x)
  case ldVxK x => exact completed_ldVxK_keeps State.i x s fun _ => rfl
  case loadRegs x => simp only [completed, State.advance_i, State.setRegs_i]
  all_goals rfl

/-- Settles O24: every other completion leaves `I`. -/
theorem indexWrittenOnlyByThree : Obligations.IndexWrittenOnlyByThree :=
  fun _ s _ h hl ha hf => exec_keeps h (fun _ => rfl) (completed_i s hl ha hf)

theorem completed_dt {i : Instr} (s : State) (h : ∀ x, i ≠ .ldDtVx x) : (completed i s).dt = s.dt := by
  cases i
  case ldDtVx x => exact absurd rfl (h x)
  case ldVxK x => exact completed_ldVxK_keeps State.dt x s fun _ => rfl
  case loadRegs x => simp only [completed, State.advance_dt, State.setRegs_dt]
  all_goals rfl

theorem completed_st {i : Instr} (s : State) (h : ∀ x, i ≠ .ldStVx x) : (completed i s).st = s.st := by
  cases i
  case ldStVx x => exact absurd rfl (h x)
  case ldVxK x => exact completed_ldVxK_keeps State.st x s fun _ => rfl
  case loadRegs x => simp only [completed, State.advance_st, State.setRegs_st]
  all_goals rfl

theorem exec_dt {i : Instr} {s t : State} (h : exec i s = .next t) (hi : ∀ x, i ≠ .ldDtVx x) : t.dt = s.dt :=
  exec_keeps h (fun _ => rfl) (completed_dt s hi)

theorem exec_st {i : Instr} {s t : State} (h : exec i s = .next t) (hi : ∀ x, i ≠ .ldStVx x) : t.st = s.st :=
  exec_keeps h (fun _ => rfl) (completed_st s hi)

/-- A cycle keeps a part of the state which neither halting nor the cycle's end writes, or runs one of the instructions
that write it. -/
theorem step_keeps_or_runs {α : Type} {part : State → α} (writer : Instr → Prop) {s t : State}
    (halt : ∀ r, part (s.halt r) = part s) (endCycle : ∀ u, part u.endCycle = part u)
    (exec_part : ∀ i u, exec i s = .next u → ¬ writer i → part u = part s) (h : step s = .next t) :
    part t = part s ∨
      ∃ i u, writer i ∧ s.status = .running ∧ s.pending = some i ∧ exec i s = .next u ∧ t = u.endCycle := by
  obtain ⟨r, -, rfl⟩ | ⟨-, -, rfl⟩ | ⟨w, u, hs, -, hf, hu, rfl⟩ := step_cases h
  · exact .inl rfl
  · exact .inl (by rw [endCycle, halt])
  · by_cases hw : writer (decode w)
    · exact .inr ⟨_, u, hw, hs, State.pending_of_fetch_ok hf, hu, rfl⟩
    · exact .inl (by rw [endCycle, exec_part _ u hu hw])

/-- Settles O23: each timer is a part that one instruction writes. -/
theorem timersChangeOnlyByTheirLoads : Obligations.TimersChangeOnlyByTheirLoads := by
  refine ⟨fun i s t h => ⟨exec_dt h, exec_st h⟩, fun s t h => ⟨?_, ?_⟩⟩
  · obtain hk | ⟨_, u, ⟨x, rfl⟩, hs, hp, hu, rfl⟩ := step_keeps_or_runs (part := State.dt) (∃ x, · = .ldDtVx x)
      (fun _ => rfl) (fun _ => rfl) (fun i u hu hi => exec_dt hu (by simpa using hi)) h
    · exact .inl hk
    · cases hu
      exact .inr ⟨x, hs, hp, rfl⟩
  · obtain hk | ⟨_, u, ⟨x, rfl⟩, hs, hp, hu, rfl⟩ := step_keeps_or_runs (part := State.st) (∃ x, · = .ldStVx x)
      (fun _ => rfl) (fun _ => rfl) (fun i u hu hi => exec_st hu (by simpa using hi)) h
    · exact .inl hk
    · cases hu
      exact .inr ⟨x, hs, hp, rfl⟩

end Sys2Proof.Machine
end

section
/-! SUPPORT. What cannot be learned (spec/10_state.md R27, R28, R31, R36): a part of the state that is replaced by other
data is carried through an instruction that does not read it. -/

namespace Sys2Proof.Machine

/-! ### Replacing a part of the state -/

/-- Of the state, the fault tables read `SP` and `I` alone. -/
theorem faultOf_congr {i : Instr} {s t : State} (hsp : t.sp = s.sp) (hi : t.i = s.i) : faultOf i t = faultOf i s := by
  cases i <;> simp only [faultOf, hsp, hi]

/-- A replacement that both outcomes of an instruction carry along is carried along by the instruction. -/
theorem exec_commutes {i : Instr} {s t : State} {e e' : State → State} (h : exec i s = .next t)
    (fault : faultOf i (e s) = faultOf i s) (halt : ∀ r, (e s).halt r = e' (s.halt r))
    (complete : completed i (e s) = e' (completed i s)) : exec i (e s) = .next (e' t) := by
  obtain ⟨r, hr, rfl⟩ | ⟨hn, rfl⟩ := exec_cases h
  · rw [exec_halts (fault.trans hr), halt]
  · rw [exec_completes (fault.trans hn), complete]

theorem completed_ldVxK_commutes {e : State → State} (x : RegIx) (s : State)
    (event : (e s).input.keyEvent = s.input.keyEvent)
    (write : ∀ b, ((e s).setReg x b).advance = e (s.setReg x b).advance) :
    completed (.ldVxK x) (e s) = e (completed (.ldVxK x) s) := by
  rw [completed, completed, event]
  cases s.input.keyEvent with
  | none => rfl
  | some k => exact write _

/-! ### The return stack -/

/-- The state with another depth and other entries. -/
def State.withStack (depth : Fin 17) (entries : Vector Word 16) (s : State) : State :=
  { s with sp := depth, stack := entries }

theorem completed_withStack {i : Instr} (depth : Fin 17) (entries : Vector Word 16) (s : State) (hr : i ≠ .ret)
    (hc : ∀ nnn, i ≠ .call nnn) :
    completed i (s.withStack depth entries) = (completed i s).withStack depth entries := by
  cases i
  case ret => exact absurd rfl hr
  case call nnn => exact absurd rfl (hc nnn)
  case ldVxK x => exact completed_ldVxK_commutes x s rfl fun _ => rfl
  all_goals rfl

theorem faultOf_withStack {i : Instr} (depth : Fin 17) (entries : Vector Word 16) (s : State) (hr : i ≠ .ret)
    (hc : ∀ nnn, i ≠ .call nnn) : faultOf i (s.withStack depth entries) = faultOf i s := by
  cases i
  case ret => exact absurd rfl hr
  case call nnn => exact absurd rfl (hc nnn)
  all_goals rfl

theorem completed_stack {i : Instr} (s : State) (hr : i ≠ .ret) (hc : ∀ nnn, i ≠ .call nnn) :
    (completed i s).sp = s.sp ∧ (completed i s).stack = s.stack := by
  have h : completed i s = (completed i s).withStack s.sp s.stack := completed_withStack s.sp s.stack s hr hc
  exact ⟨by rw [h]; rfl, by rw [h]; rfl⟩

/-- Settles O22: the stack is carried along, its own or another one. -/
theorem stackReachedOnlyByCallAndRet : Obligations.StackReachedOnlyByCallAndRet := by
  intro i s t h hr hc
  obtain ⟨hsp, hstack⟩ := completed_stack s hr hc
  exact ⟨stackKept_of_eq (exec_keeps h (fun _ => rfl) hsp) (exec_keeps h (fun _ => rfl) hstack),
    fun depth entries => exec_commutes (e := State.withStack depth entries) h
      (faultOf_withStack depth entries s hr hc) (fun _ => rfl) (completed_withStack depth entries s hr hc)⟩

/-! ### The environment inputs -/

/-- The state with other waiting inputs and another cycle number. -/
def State.withInputs (waiting : List EnvInput) (number : Nat) (s : State) : State :=
  { s with inputs := waiting, cycle := number }

theorem completed_withInputs {i : Instr} (waiting : List EnvInput) (number : Nat) (s : State)
    (h : SameInputsRead i s.input (s.withInputs waiting number).input) :
    completed i (s.withInputs waiting number) = (completed i s).withInputs waiting number := by
  cases i
  case skp x | sknp x =>
    have held : s.input.keyHeld = (s.withInputs waiting number).input.keyHeld := h
    simp only [completed, State.keyHeld, ← held]
    rfl
  case rnd x kk =>
    have drawn : s.input.randByte = (s.withInputs waiting number).input.randByte := h
    simp only [completed, ← drawn]
    rfl
  case ldVxK x => exact completed_ldVxK_commutes x s (Eq.symm h) fun _ => rfl
  all_goals rfl

/-- Settles O26: the inputs are carried along where those that are read agree. -/
theorem unreadInputsHaveNoEffect : Obligations.UnreadInputsHaveNoEffect :=
  fun _ s _ waiting number hr h => exec_commutes (e := State.withInputs waiting number) h (faultOf_congr rfl rfl)
    (fun _ => rfl) (completed_withInputs waiting number s hr)

/-! ### The display -/

theorem completed_setFb {i : Instr} (f : FrameBuffer) (s : State) (hc : i ≠ .cls) (hd : ∀ x y n, i ≠ .drw x y n) :
    completed i (s.setFb f) = (completed i s).setFb f := by
  cases i
  case cls => exact absurd rfl hc
  case drw x y n => exact absurd rfl (hd x y n)
  case ldVxK x => exact completed_ldVxK_commutes (e := (State.setFb · f)) x s rfl fun _ => rfl
  all_goals rfl

/-- Settles O28: `CLS` writes the display without reading it. -/
theorem displayReadOnlyByDraw : Obligations.DisplayReadOnlyByDraw := by
  intro i s t f hd h
  by_cases hc : i = .cls
  · subst hc
    cases h
    exact ⟨FrameBuffer.clear, rfl⟩
  · exact ⟨f, exec_commutes (e := (State.setFb · f)) (e' := (State.setFb · f)) h (faultOf_congr rfl rfl) (fun _ => rfl)
      (completed_setFb f s hc hd)⟩

/-! ### Two machines side by side -/

/-- A cycle keeps a relation of two machines which fetch alike, if halting, completing and the cycle's end keep it. -/
theorem step_simulates {R : State → State → Prop} {s s' t : State}
    (status : s'.status = s.status) (fetch : s'.fetch = s.fetch) (fault : ∀ i, faultOf i s' = faultOf i s)
    (halt : ∀ r, R (s.halt r) (s'.halt r)) (complete : ∀ i, faultOf i s = none → R (completed i s) (completed i s'))
    (endCycle : ∀ u u', R u u' → R u.endCycle u'.endCycle) (related : R s s') (h : step s = .next t) :
    ∃ t', step s' = .next t' ∧ R t t' := by
  obtain ⟨r, hr, rfl⟩ | ⟨hs, hf, rfl⟩ | ⟨w, u, hs, -, hf, hu, rfl⟩ := step_cases h
  · exact ⟨s', step_halted (status.trans hr), related⟩
  · have hf' : s.fetch = .error .addressingFault := by simp [State.fetch, hf]
    exact ⟨_, step_fetch_fault (status.trans hs) (fetch.trans hf'), endCycle _ _ (halt _)⟩
  · obtain ⟨r, hr, rfl⟩ | ⟨hn, rfl⟩ := exec_cases hu
    · exact ⟨_, step_runs (status.trans hs) (fetch.trans hf) (exec_halts ((fault _).trans hr)), endCycle _ _ (halt r)⟩
    · exact ⟨_, step_runs (status.trans hs) (fetch.trans hf) (exec_completes ((fault _).trans hn)),
        endCycle _ _ (complete _ hn)⟩

/-- Equal but for `ST`. -/
def SameButSt (s s' : State) : Prop := ∃ c, s' = s.setSt c

theorem completed_sameButSt (i : Instr) (s : State) (b : Byte) :
    SameButSt (completed i s) (completed i (s.setSt b)) := by
  cases i
  case ldStVx x => exact ⟨s.reg x, rfl⟩
  case ldVxK x => exact ⟨b, completed_ldVxK_commutes (e := (State.setSt · b)) x s rfl fun _ => rfl⟩
  all_goals exact ⟨b, rfl⟩

/-- Settles O25: being equal but for `ST` is kept by a cycle. -/
theorem soundTimerHasNoEffect : Obligations.SoundTimerHasNoEffect := by
  intro s t b h
  obtain ⟨-, h', c, rfl⟩ := step_simulates (R := SameButSt) (s := s) (s' := s.setSt b) rfl rfl
    (fun i => faultOf_congr rfl rfl) (fun r => ⟨b, rfl⟩) (fun i _ => completed_sameButSt i s b)
    (by rintro u - ⟨c, rfl⟩; exact ⟨c, rfl⟩) ⟨b, rfl⟩ h
  exact ⟨c, h'⟩

/-- Equal but for stack entries at or above the depth. -/
def SameButDeadEntries (s s' : State) : Prop :=
  ∃ entries : Vector Word 16, s' = s.withStack s.sp entries ∧
    ∀ k : Fin 16, k.val < s.sp.val → entries[k.val] = s.stack[k.val]

theorem completed_sameButDeadEntries {i : Instr} {s : State} {entries : Vector Word 16}
    (live : ∀ k : Fin 16, k.val < s.sp.val → entries[k.val] = s.stack[k.val]) (h : faultOf i s = none) :
    SameButDeadEntries (completed i s) (completed i (s.withStack s.sp entries)) := by
  by_cases hr : i = .ret
  · subst hr
    have hsp := faultOf_ret_eq_none_iff.1 h
    have top : entries[s.sp.val - 1] = s.stack[s.sp.val - 1] := live ⟨s.sp.val - 1, by omega⟩ (Nat.sub_one_lt hsp)
    refine ⟨entries, ?_, fun k hk => live k (Nat.lt_of_lt_of_le hk (Nat.sub_le _ _))⟩
    rw [completed, completed, ← top]
    rfl
  by_cases hc : ∃ nnn, i = .call nnn
  · obtain ⟨nnn, rfl⟩ := hc
    have hsp := faultOf_call_eq_none_iff.1 h
    rw [completed_call nnn s hsp, completed_call nnn (s.withStack s.sp entries) hsp]
    refine ⟨entries.set s.sp.val s.nextPc, rfl, fun k hk => ?_⟩
    have hk' : k.val < s.sp.val + 1 := hk
    simp only [State.setPc_stack, Vector.getElem_set]
    split
    · rfl
    · exact live k (by omega)
  · obtain ⟨hsp, hstack⟩ := completed_stack s hr (not_exists.1 hc)
    refine ⟨entries, ?_, fun k hk => ?_⟩
    · rw [completed_withStack s.sp entries s hr (not_exists.1 hc), hsp]
    · simp only [hstack]
      exact live k (hsp ▸ hk)

/-- Settles O27: being equal but for dead entries is kept by a cycle. -/
theorem deadStackEntriesUnobservable : Obligations.DeadStackEntriesUnobservable := by
  intro s t other live h
  obtain ⟨-, h', after, rfl, live'⟩ := step_simulates (R := SameButDeadEntries) (s := s)
    (s' := s.withStack s.sp other) rfl rfl (fun i => faultOf_congr rfl rfl) (fun r => ⟨other, rfl, live⟩)
    (fun i hi => completed_sameButDeadEntries live hi)
    (by rintro u - ⟨after, rfl, live'⟩; exact ⟨after, rfl, live'⟩) ⟨other, rfl, live⟩ h
  exact ⟨after, h', live'⟩

end Sys2Proof.Machine
end

section
/-! SUPPORT. The cycle (spec/40_flow_control.md R100): what it fetches, the order of its tests, its faults, and the two
stack primitives of spec/10_state.md R29. -/

namespace Sys2Proof.Machine

/-! ### Fetching -/

theorem not_fetchable_iff (a : Word) :
    fetchable a = false ↔ a.toNat % 2 = 1 ∨ a.toNat < 0x200 ∨ 0xFFE < a.toNat := by
  rw [← Bool.not_eq_true, fetchable_iff]
  omega

theorem State.fetch_ok {s : State} (h : fetchable s.pc = true) :
    s.fetch = .ok (opcodeOf (s.mem.read s.pc.toNat) (s.mem.read (s.pc.toNat + 1))) := by
  simp [State.fetch, h]

theorem State.fetch_fault {s : State} (h : fetchable s.pc = false) : s.fetch = .error .addressingFault := by
  simp [State.fetch, h]

theorem step_bad_pc {s : State} (hs : s.status = .running) (h : fetchable s.pc = false) :
    step s = .next (s.halt .addressingFault).endCycle :=
  step_fetch_fault hs (State.fetch_fault h)

/-- Settles O6: the bytes at `PC` are the word of the instruction, which decodes to it. -/
theorem stepRunsTheInstructionAtPc : Obligations.StepRunsTheInstructionAtPc := by
  intro s t i hs heven hlo hhi hwf hhigh hlow he
  have hf : s.fetch = .ok (encode i) := by
    rw [State.fetch_ok ((fetchable_iff _).2 ⟨heven, hlo, hhi⟩), hhigh, hlow, opcodeOf_bytes]
  obtain ⟨hinputs, hcycle⟩ := exec_keeps_inputs he
  rw [step_runs hs hf (by rwa [decode_encode hwf]), State.endCycle, hinputs, hcycle]

/-- Settles O7: a fetch and an instruction have no outcome but those of `step_next`. -/
theorem everyStepAnswersANextState : Obligations.EveryStepAnswersANextState := step_next

/-- Settles O8: the tests are those of `step_halted`, `step_bad_pc` and the two outcomes of an instruction. -/
theorem cycleTestsInOrder : Obligations.CycleTestsInOrder := by
  refine fun s => ⟨fun r => step_halted, fun hs => ⟨fun h => step_bad_pc hs ((not_fetchable_iff _).2 h), ?_⟩⟩
  intro heven hlo hhi
  have hf := State.fetch_ok ((fetchable_iff s.pc).2 ⟨heven, hlo, hhi⟩)
  refine ⟨fun hhigh hlow => ?_, ?_, ?_⟩
  · rw [hhigh, hlow] at hf
    exact step_runs hs hf rfl
  · rintro _ r rfl - hr
    exact step_runs hs hf (exec_halts hr)
  · rintro _ rfl hn
    refine ⟨_, step_runs hs hf (exec_completes hn), ?_⟩
    rw [State.endCycle_status, exec_status (exec_completes hn), hn]
    exact hs

/-! ### Faults of a cycle -/

theorem faultOf_eq_stackOverflow_iff {i : Instr} {s : State} :
    faultOf i s = some .stackOverflow ↔ (∃ nnn, i = .call nnn) ∧ s.sp.val = 16 := by
  cases i <;> simp [faultOf]

/-- Calls as long as there is room on the stack, then one more. -/
theorem execCalls_fill (targets : List (BitVec 12)) (s : State) (h : s.sp.val + targets.length ≤ 16) :
    ∃ t, execCalls targets s = .next t ∧ t.status = s.status ∧ t.sp.val = s.sp.val + targets.length := by
  induction targets generalizing s with
  | nil => exact ⟨s, rfl, rfl, rfl⟩
  | cons nnn rest ih =>
    simp only [List.length_cons] at h
    obtain ⟨t, ht, hstatus, hsp⟩ := ih (State.setPc { s with
      stack := s.stack.set s.sp.val s.nextPc, sp := ⟨s.sp.val + 1, by omega⟩ } (addrOf nnn))
      (by simp only [State.setPc_sp]; omega)
    refine ⟨t, ?_, hstatus, ?_⟩
    · rw [execCalls, exec, execCall_ok nnn s (by omega)]
      exact ht
    · rw [hsp, List.length_cons, State.setPc_sp]
      simp only
      omega

/-- Settles O11: of the reasons a cycle can halt for, `StackOverflow` is the one of `CALL` on a full stack alone. -/
theorem stackOverflowExactlyAtFullCall : Obligations.StackOverflowExactlyAtFullCall := by
  refine ⟨fun s t hs h => ?_, fun s targets hs hsp hlen => ?_⟩
  · rw [step_halts_iff hs h]
    cases s.pending with
    | none => simp
    | some i => simp [faultOf_eq_stackOverflow_iff]
  · obtain ⟨t, ht, hstatus, hfull⟩ := execCalls_fill targets s (by omega)
    exact ⟨t, ht, hstatus.trans hs, fun nnn => execCall_fault nnn t (by omega)⟩

theorem faultOf_eq_addressingFault_iff {i : Instr} {s : State} : faultOf i s = some .addressingFault ↔
    (∃ x y n, i = .drw x y n ∧ 0 < n.val ∧ 0xFFF < s.i.toNat + n.val - 1) ∨
    (∃ x, i = .ldB x ∧ 0xFFF < s.i.toNat + 2) ∨
    (∃ x, i = .storeRegs x ∧ 0xFFF < s.i.toNat + x.val) ∨
    (∃ x, i = .loadRegs x ∧ 0xFFF < s.i.toNat + x.val) := by
  cases i <;> simp [faultOf]
  case drw => omega
  case ldB => omega

theorem State.pending_ok {s : State} (h : fetchable s.pc = true) : ∃ i, s.pending = some i :=
  ⟨_, State.pending_of_fetch_ok (State.fetch_ok h)⟩

/-- Settles O13: there is no opcode to fetch, or its instruction is one of the four that address memory by `I`. -/
theorem addressingFaultHasFiveCauses : Obligations.AddressingFaultHasFiveCauses := by
  intro s t hs h
  rw [step_halts_iff hs h, ← not_fetchable_iff]
  cases hf : fetchable s.pc with
  | false => simp [State.pending_eq_none hf]
  | true =>
    obtain ⟨i, hi⟩ := State.pending_ok hf
    simp [hi, faultOf_eq_addressingFault_iff]

/-! ### The stack primitives (R29) -/

/-- Pushes as long as there is room. -/
theorem push_fill (values : List Word) (s : State) (h : s.sp.val + values.length ≤ 16) :
    ∃ t, values.foldlM State.push s = .ok t ∧ t.sp.val = s.sp.val + values.length := by
  induction values generalizing s with
  | nil => exact ⟨s, rfl, rfl⟩
  | cons a rest ih =>
    simp only [List.length_cons] at h ⊢
    obtain ⟨t, ht, hsp⟩ := ih { s with stack := s.stack.set s.sp.val a, sp := ⟨s.sp.val + 1, by omega⟩ }
      (by simp only; omega)
    refine ⟨t, ?_, by simp only at hsp; omega⟩
    rw [List.foldlM_cons, s.push_ok a (by omega)]
    exact ht

/-- Settles O10: both cases of each primitive, and a stack filled by induction. -/
theorem stackPrimitives : Obligations.StackPrimitives := by
  refine fun s a => ⟨s.push_full a, fun h => ⟨_, s.push_ok a (by omega), rfl, fun k => ?_, rfl⟩, s.pop_empty,
    fun h => ⟨_, s.pop_ok h, rfl, rfl⟩, fun values hs hlen => ?_⟩
  · rw [Vector.getElem_set]
    simp only [eq_comm]
  · obtain ⟨t, ht, hsp⟩ := push_fill values s (by omega)
    exact ⟨t, ht, t.push_full a (by omega)⟩

/-! ### Where an instruction leaves `PC` (R24) -/

theorem State.skip_pc_toNat (s : State) (c : Bool) (h : s.pc.toNat ≤ 0xFFE) :
    (s.skip c).pc.toNat = skipTo s.pc.toNat c := by
  have hn := s.nextPc_toNat h
  have h2 : (2 : Word).toNat = 2 := rfl
  rw [State.skip_pc, skipTo]
  cases c
  · exact hn
  · simp only [if_true, BitVec.toNat_add, hn, h2]
    omega

theorem jpV0_target_toNat (nnn : BitVec 12) (b : Byte) : (addrOf nnn + widen b).toNat = nnn.toNat + b.toNat := by
  have := nnn.isLt
  have := b.isLt
  rw [BitVec.toNat_add, addrOf_toNat, widen_toNat]
  omega

/-- R24 for the completion of any instruction. -/
theorem completed_pc (i : Instr) (s : State) (h : s.pc.toNat ≤ 0xFFE) :
    (completed i s).pc.toNat = pcAfter i s := by
  cases i
  case halt | ret => rfl
  case jp nnn | call nnn => exact addrOf_toNat nnn
  case jpV0 nnn => exact jpV0_target_toNat nnn _
  case seImm | sneImm | seReg | sneReg | skp | sknp => exact s.skip_pc_toNat _ h
  case ldVxK x =>
    rw [completed, pcAfter]
    cases s.input.keyEvent with
    | none => rfl
    | some k => exact s.nextPc_toNat h
  case loadRegs x =>
    rw [completed, State.advance_pc, State.nextPc, State.setRegs_pc]
    exact s.nextPc_toNat h
  all_goals exact s.nextPc_toNat h

/-- Settles O19: the completion assigns the `PC` of the table. -/
theorem pcAfterEachInstruction : Obligations.PcAfterEachInstruction :=
  fun i s h hn => ⟨_, exec_completes hn, completed_pc i s h⟩

end Sys2Proof.Machine
end

section
/-! SUPPORT. The invariant of a run (Sys2Proof/Safety.lean): each part of it is kept by a completion, so by a cycle, and
the part that is about the core is kept by every operation of the host. -/

namespace Sys2Proof.Machine

/-! ### Bad targets -/

/-- An instruction that leaves the machine running was completed. -/
theorem completed_of_running {i : Instr} {s t : State} (h : exec i s = .next t) (ht : t.status = .running) :
    faultOf i s = none ∧ t = completed i s := by
  obtain ⟨r, -, rfl⟩ | hc := exec_cases h
  · cases ht
  · exact hc

theorem completed_ret_pc {s : State} (k : Fin 16) (h : s.sp.val = k.val + 1) :
    (completed .ret s).pc = s.stack[k.val] := by
  have hk : s.sp.val - 1 = k.val := by omega
  simp only [completed, State.setPc_pc, hk]

/-- Settles O31: the target is assigned without a test, and the next fetch finds it. -/
theorem badTargetsFaultOneStepLater : Obligations.BadTargetsFaultOneStepLater := by
  intro nnn i target s t transfer bad he hs
  obtain ⟨-, rfl⟩ := completed_of_running he hs
  have hpc : (completed i s).pc.toNat = target := by
    obtain ⟨rfl | rfl, rfl⟩ | ⟨rfl, rfl⟩ | ⟨rfl, k, hk, rfl⟩ := transfer
    · exact addrOf_toNat nnn
    · exact addrOf_toNat nnn
    · exact jpV0_target_toNat nnn _
    · rw [completed_ret_pc k hk]
  have hbad : fetchable (completed i s).pc = false := by rwa [not_fetchable_iff, hpc]
  exact ⟨_, step_bad_pc hs hbad, rfl, hpc, stackKept_of_eq rfl rfl⟩

/-! ### The parts of the invariant -/

theorem completed_mem_wf {i : Instr} {s : State} (hm : s.mem.wf = true) (hn : faultOf i s = none) :
    (completed i s).mem.wf = true := by
  by_cases hb : ∃ x, i = .ldB x
  · obtain ⟨x, rfl⟩ := hb
    have hi : s.i.toNat + 2 ≤ 0xFFF := by simpa [faultOf] using hn
    exact Memory.wf_writeList _ hm (by rw [length_bcdDigits, Config.memSize]; omega)
  by_cases hs : ∃ x, i = .storeRegs x
  · obtain ⟨x, rfl⟩ := hs
    have hi : s.i.toNat + x.val ≤ 0xFFF := by simpa [faultOf] using hn
    exact Memory.wf_writeList _ hm (by rw [State.length_regsTo, Config.memSize]; omega)
  · rw [completed_mem s (not_exists.1 hb) (not_exists.1 hs)]
    exact hm

theorem completed_returnsSound {i : Instr} {s : State} (hpc : fetchable s.pc = true) (h : ReturnsSound s)
    (hn : faultOf i s = none) : ReturnsSound (completed i s) := by
  obtain ⟨heven, hlo, hhi⟩ := (fetchable_iff _).1 hpc
  by_cases hr : i = .ret
  · subst hr
    exact fun k hk => h k (Nat.lt_of_lt_of_le hk (Nat.sub_le _ _))
  by_cases hc : ∃ nnn, i = .call nnn
  · obtain ⟨nnn, rfl⟩ := hc
    have hsp := faultOf_call_eq_none_iff.1 hn
    rw [completed_call nnn s hsp]
    intro k hk
    have hk' : k.val < s.sp.val + 1 := hk
    simp only [State.setPc_stack, Vector.getElem_set]
    split
    · rw [s.nextPc_toNat hhi]
      omega
    · exact h k (by omega)
  · obtain ⟨hsp, hstack⟩ := completed_stack s hr (not_exists.1 hc)
    intro k hk
    simp only [hstack]
    exact h k (hsp ▸ hk)

theorem skipTo_le (a : Nat) (c : Bool) : skipTo a c ≤ a + 4 := by
  rw [skipTo]
  split <;> omega

/-- R24: the highest target is `0xFFF + 0xFF`, of `JP V0,nnn`. -/
theorem pcAfter_le {i : Instr} {s : State} (hpc : s.pc.toNat ≤ 0xFFE) (h : ReturnsSound s)
    (hn : faultOf i s = none) : pcAfter i s ≤ 0x10FE := by
  cases i
  case ret =>
    have hsp := faultOf_ret_eq_none_iff.1 hn
    obtain ⟨-, -, hle⟩ := h ⟨s.sp.val - 1, by omega⟩ (Nat.sub_one_lt hsp)
    exact Nat.le_trans hle (by decide)
  case jp nnn | call nnn =>
    have := nnn.isLt
    simp only [pcAfter]
    omega
  case jpV0 nnn =>
    have := nnn.isLt
    have := (s.reg 0).isLt
    simp only [pcAfter]
    omega
  case seImm | sneImm | seReg | sneReg | skp | sknp =>
    exact Nat.le_trans (skipTo_le _ _) (by omega)
  case ldVxK x =>
    simp only [pcAfter]
    split <;> omega
  all_goals
    simp only [pcAfter]
    omega

theorem completed_coreInv {i : Instr} {s : State} (hpc : fetchable s.pc = true) (h : CoreInv s)
    (hn : faultOf i s = none) : CoreInv (completed i s) := by
  obtain ⟨hm, -, hret⟩ := h
  obtain ⟨-, -, hhi⟩ := (fetchable_iff _).1 hpc
  refine ⟨completed_mem_wf hm hn, ?_, completed_returnsSound hpc hret hn⟩
  rw [PcBounded, completed_pc i s hhi]
  exact pcAfter_le hhi hret hn

/-! ### A cycle -/

/-- The core's invariant does not look at `STATUS`, the timers, the inputs and the rest. -/
theorem coreInv_congr {s t : State} (hm : t.mem = s.mem) (hpc : t.pc = s.pc) (hsp : t.sp = s.sp)
    (hstack : t.stack = s.stack) : CoreInv t ↔ CoreInv s := by
  simp only [CoreInv, MemoryCanonical, PcBounded, ReturnsSound, hm, hpc, hsp, hstack]

theorem step_coreInv {s t : State} (h : CoreInv s) (hst : step s = .next t) : CoreInv t := by
  obtain ⟨r, -, rfl⟩ | ⟨-, -, rfl⟩ | ⟨w, u, -, hpc, -, hu, rfl⟩ := step_cases hst
  · exact h
  · exact (coreInv_congr rfl rfl rfl rfl).2 h
  · obtain ⟨r, -, rfl⟩ | ⟨hn, rfl⟩ := exec_cases hu
    · exact (coreInv_congr rfl rfl rfl rfl).2 h
    · exact (coreInv_congr rfl rfl rfl rfl).2 (completed_coreInv hpc h hn)

/-- The reason for a halt can be read again afterwards: only `STATUS` and the inputs have changed. -/
theorem haltExplained_halt {s : State} {r : HaltReason}
    (h : s.pending.elim (some .addressingFault) (faultOf · s) = some r) : HaltExplained (s.halt r).endCycle := by
  intro r' hr'
  cases hr'
  have hp : (s.halt r).endCycle.pending = s.pending := rfl
  rw [hp]
  cases hi : s.pending with
  | none =>
    rw [hi] at h
    exact (Option.some.inj h).symm
  | some i =>
    rw [hi, Option.elim_some] at h
    have hf : faultOf i (s.halt r).endCycle = faultOf i s := faultOf_congr rfl rfl
    exact hf.trans h

theorem step_haltExplained {s t : State} (h : HaltExplained s) (hst : step s = .next t) : HaltExplained t := by
  obtain ⟨r, -, rfl⟩ | ⟨-, hpc, rfl⟩ | ⟨w, u, hs, -, hf, hu, rfl⟩ := step_cases hst
  · exact h
  · exact haltExplained_halt (by rw [State.pending_eq_none hpc]; rfl)
  · obtain ⟨r, hfault, rfl⟩ | ⟨hn, rfl⟩ := exec_cases hu
    · exact haltExplained_halt (by rw [State.pending_of_fetch_ok hf]; exact hfault)
    · intro r hr
      rw [State.endCycle_status, exec_status hu, hn, Option.elim_none, hs] at hr
      cases hr

/-- Settles O14: the core's part and the reason for a halt are kept each on its own. -/
theorem stepKeepsInvariant : Obligations.StepKeepsInvariant :=
  fun _ _ ⟨hcore, hhalt⟩ h => ⟨step_coreInv hcore h, step_haltExplained hhalt h⟩

theorem coreInv_reset : CoreInv State.reset :=
  ⟨Memory.wf_reset, by rw [PcBounded]; decide, fun _ hk => absurd hk (Nat.not_lt_zero _)⟩

/-- Settles O15: nothing is listed in memory, the stack is empty and the machine runs. -/
theorem resetMeetsInvariant : Obligations.ResetMeetsInvariant :=
  ⟨coreInv_reset, fun _ hr => by cases hr⟩

/-! ### A schedule of the host -/

theorem State.hostStep_cases {s t : State} {e : EnvInput} (h : s.hostStep e = .next t) :
    ∃ u, step { s with inputs := e :: s.inputs } = .next u ∧ t = { u with inputs := s.inputs } := by
  obtain ⟨u, hu⟩ := step_next { s with inputs := e :: s.inputs }
  rw [State.hostStep, hu] at h
  exact ⟨u, hu, by simpa using h.symm⟩

theorem State.hostStep_coreInv {s t : State} {e : EnvInput} (hs : CoreInv s) (h : s.hostStep e = .next t) :
    CoreInv t := by
  obtain ⟨u, hu, rfl⟩ := State.hostStep_cases h
  have hs' : CoreInv { s with inputs := e :: s.inputs } := (coreInv_congr rfl rfl rfl rfl).2 hs
  have hu' : CoreInv u := step_coreInv hs' hu
  exact (coreInv_congr rfl rfl rfl rfl).2 hu'

theorem State.loadProgram_coreInv {s : State} (b : List Byte) (hs : CoreInv s) : CoreInv (s.loadProgram b).1 := by
  obtain hb | hb := Nat.lt_or_ge 3584 b.length
  · rw [s.loadProgram_tooLarge hb]
    exact hs
  · obtain ⟨hm, hpc, hret⟩ := hs
    rw [s.loadProgram_fits hb]
    exact ⟨Memory.wf_writeList b hm (by rw [Config.progBase, Config.memSize]; omega), hpc, hret⟩

theorem hostOp_coreInv {o : HostOp} {s t : State} {reply : HostReply} (hs : CoreInv s)
    (h : hostOp o s = .next (t, reply)) : CoreInv t := by
  cases o
  case reset =>
    cases h
    exact (coreInv_congr rfl rfl rfl rfl).2 coreInv_reset
  case loadProgram b =>
    cases h
    exact s.loadProgram_coreInv b hs
  case step e =>
    obtain ⟨u, hu⟩ := s.hostStep_next e
    rw [hostOp_step hu] at h
    cases h
    exact State.hostStep_coreInv hs hu
  case tickDelay =>
    cases h
    rw [State.tickDelay]
    split <;> exact hs
  case tickSound =>
    cases h
    rw [State.tickSound]
    split <;> exact hs
  all_goals
    cases h
    exact hs

/-- Settles O16, by induction on the schedule. -/
theorem everyHostScheduleKeepsCoreInvariant : Obligations.EveryHostScheduleKeepsCoreInvariant := by
  intro os
  induction os with
  | nil =>
    intro s t hs h
    cases h
    exact hs
  | cons o os ih =>
    intro s t hs h
    rw [hostRun] at h
    split at h
    · next u reply hu => exact ih u t (hostOp_coreInv hs hu) h
    · cases h
    · cases h

/-! ### Memory as data -/

theorem Memory.wfFrom_cons {lo : Nat} {c : Host.Cell} {m : Memory} : Memory.wfFrom lo (c :: m) = true ↔
    lo ≤ c.1 ∧ c.1 < Config.memSize ∧ c.2 ≠ Memory.unlisted c.1 ∧ Memory.wfFrom (c.1 + 1) m = true := by
  simp [Memory.wfFrom, and_assoc]

theorem Memory.read_cons (c : Host.Cell) (m : Memory) (a : Nat) :
    Memory.read (c :: m) a = if a = c.1 then c.2 else Memory.read m a := rfl

/-- A listed byte is not what its address reads unlisted, so a list that lists nothing below an address reads
differently from one whose first address it is. -/
theorem Memory.first_address_le {m n : Memory} {c d : Host.Cell} {lo : Nat} (hm : Memory.wfFrom lo (c :: m) = true)
    (hn : Memory.wfFrom lo (d :: n) = true) (h : ∀ a, Memory.read (c :: m) a = Memory.read (d :: n) a) :
    d.1 ≤ c.1 := by
  obtain ⟨-, -, hc, -⟩ := Memory.wfFrom_cons.1 hm
  obtain ⟨-, hd, hdb, hn'⟩ := Memory.wfFrom_cons.1 hn
  by_contra hlt
  have hread := h c.1
  rw [Memory.read_cons, if_pos rfl] at hread
  exact hc (hread.trans (Memory.read_below (Memory.wfFrom_cons.2 ⟨Nat.le_refl d.1, hd, hdb, hn'⟩) (by omega)))

theorem Memory.ext_wfFrom {m n : Memory} {lo : Nat} (hm : Memory.wfFrom lo m = true) (hn : Memory.wfFrom lo n = true)
    (h : ∀ a, Memory.read m a = Memory.read n a) : m = n := by
  induction m generalizing n lo with
  | nil =>
    cases n with
    | nil => rfl
    | cons d n =>
      obtain ⟨-, -, hd, -⟩ := Memory.wfFrom_cons.1 hn
      exact absurd ((h d.1).trans (if_pos rfl)).symm hd
  | cons c m ih =>
    obtain ⟨-, -, hc, hm'⟩ := Memory.wfFrom_cons.1 hm
    cases n with
    | nil => exact absurd (((if_pos rfl).symm.trans (h c.1) : c.2 = _)) hc
    | cons d n =>
      obtain ⟨-, -, -, hn'⟩ := Memory.wfFrom_cons.1 hn
      obtain ⟨k, b⟩ := c
      obtain ⟨k', b'⟩ := d
      obtain rfl : k = k' :=
        Nat.le_antisymm (Memory.first_address_le hn hm fun a => (h a).symm) (Memory.first_address_le hm hn h)
      have hb : b = b' := by simpa [Memory.read_cons] using h k
      rw [hb, ih hm' hn' fun a => ?_]
      by_cases ha : a = k
      · rw [ha, Memory.read_below hm' (Nat.lt_succ_self k), Memory.read_below hn' (Nat.lt_succ_self k)]
      · simpa [Memory.read_cons, ha] using h a

/-- Settles O17, by induction on both lists from the lowest address. -/
theorem canonicalMemoriesAreEqualData : Obligations.CanonicalMemoriesAreEqualData :=
  fun _ _ => Memory.ext_wfFrom

end Sys2Proof.Machine
end

section
/-! SUPPORT. What each instruction does, rule by rule: spec/40_flow_control.md, 41_skips.md, 42_alu.md,
43_index_memory.md and 44_timers_keys_random.md. -/

namespace Sys2Proof.Machine

/-! ### Control transfer -/

/-- Settles O29: a halt writes `STATUS`, an advance writes `PC`. -/
theorem haltAndUnknownEffects : Obligations.HaltAndUnknownEffects :=
  fun _ s => ⟨⟨_, rfl, rfl, rfl⟩, s.advance, rfl, rfl, onlyPc_advance s⟩

/-- Settles O30: each is one assignment of `PC`. -/
theorem jumpsAssignPc : Obligations.JumpsAssignPc := fun nnn s =>
  ⟨⟨_, rfl, addrOf_toNat nnn, onlyPc_setPc s _⟩, _, rfl, jpV0_target_toNat nnn (s.reg 0), onlyPc_setPc s _⟩

/-- Settles O32: a push with room, then an assignment of `PC`. -/
theorem callPushesReturnAddress : Obligations.CallPushesReturnAddress := by
  refine fun nnn s h => ⟨_, execCall_ok nnn s h, addrOf_toNat nnn, rfl, fun k => ?_, regsKept_of_eq rfl, rfl,
    ⟨rfl, rfl⟩, memoryKept_of_eq rfl, displayKept_of_eq rfl, rfl, rfl, rfl⟩
  simp only [State.setPc_stack, Vector.getElem_set, eq_comm (a := k.val)]
  rfl

/-- Settles O33: a pop with an entry, which becomes `PC`. -/
theorem retPopsReturnAddress : Obligations.RetPopsReturnAddress := by
  refine fun s k h => ⟨_, exec_completes (if_neg (by omega)), completed_ret_pc k h, ?_, fun _ => rfl,
    regsKept_of_eq rfl, rfl, ⟨rfl, rfl⟩, memoryKept_of_eq rfl, displayKept_of_eq rfl, rfl, rfl, rfl⟩
  simp [completed, h]

/-- Settles O34: the entry popped is the one just pushed. -/
theorem retUndoesCall : Obligations.RetUndoesCall := by
  intro nnn s h
  refine ⟨_, _, execCall_ok nnn s h, execRet_ok _ (by simp), ?_, ?_⟩
  · simp [State.nextPc]
  · simp

/-! ### Skips -/

theorem State.skip_pc_eq (s : State) (c : Bool) : (s.skip c).pc = s.pc + (if c = true then 4 else 2) := by
  rw [State.skip_pc, State.nextPc]
  cases c
  · rfl
  · rw [BitVec.add_assoc]
    rfl

/-- Settles O35: each is a skip on its condition. -/
theorem registerSkips : Obligations.RegisterSkips := by
  refine fun x y kk low s => ⟨⟨_, rfl, ?_, onlyPc_skip s _⟩, ⟨_, rfl, ?_, onlyPc_skip s _⟩,
    ⟨_, rfl, ?_, onlyPc_skip s _⟩, _, rfl, ?_, onlyPc_skip s _⟩
  all_goals simp only [State.skip_pc_eq, beq_iff_eq, bne_iff_ne]

/-- Settles O36: each is a skip on the key held, or not held. -/
theorem keypadSkips : Obligations.KeypadSkips := by
  refine fun x s => ⟨⟨_, rfl, s.skip_pc_eq _, onlyPc_skip s _⟩, _, rfl, ?_, onlyPc_skip s _⟩
  simp only [State.skip_pc_eq, Bool.not_eq_true']
  rfl

/-! ### Arithmetic and logic -/

/-- Settles O37: each of the six is one register write. -/
theorem loadsAddAndLogic : Obligations.LoadsAddAndLogic := by
  refine fun x y kk s => ⟨⟨_, rfl, ?_, rfl, onlyReg_setReg s x _⟩, ⟨_, rfl, ?_, rfl, onlyReg_setReg s x _⟩,
    ⟨_, rfl, ?_, rfl, onlyReg_setReg s x _⟩, ⟨_, rfl, fun b => ?_, rfl, onlyReg_setReg s x _⟩,
    ⟨_, rfl, fun b => ?_, rfl, onlyReg_setReg s x _⟩, _, rfl, fun b => ?_, rfl, onlyReg_setReg s x _⟩
  all_goals rw [State.advance_reg, State.reg_setReg_same]
  · rw [BitVec.toNat_add]
  · rw [BitVec.getLsbD_or]
  · rw [BitVec.getLsbD_and]
  · rw [BitVec.getLsbD_xor]

theorem carryFlag_eq (a b : Byte) : carryFlag a b = if 255 < a.toNat + b.toNat then 1 else 0 := by
  simp [carryFlag, flag]

/-- With `SUB_EQ_FLAG = 0` the flag of equal operands is the strict comparison too (R147, R149). -/
theorem greaterFlag_eq (a b : Byte) : greaterFlag a b = if b.toNat < a.toNat then 1 else 0 := by
  rw [greaterFlag]
  by_cases h : a = b
  · simp [h, Config.subEqFlag]
  · simp [h, flag]

theorem toNat_sub_eq_emod (a b : Byte) : ((a - b).toNat : Int) = (a.toNat - b.toNat : Int) % 256 := by
  have := a.isLt
  have := b.isLt
  rw [BitVec.toNat_sub]
  omega

/-- A result and a flag: the flag remains, and the result where it has a register of its own (R151). -/
theorem reg_flag_and_result (s : State) (x : RegIx) (b f : Byte) :
    (s.setRegFlag x b f).advance.reg 15 = f ∧ (x ≠ 15 → (s.setRegFlag x b f).advance.reg x = b) := by
  refine ⟨?_, fun hx => ?_⟩
  · exact (State.reg_setRegFlag s x 15 b f).trans (if_pos rfl)
  · exact (State.reg_setRegFlag s x x b f).trans ((if_neg hx).trans (if_pos rfl))

/-- Settles O38: each is a result and then a flag, of the operands as they were. -/
theorem addAndSubtractWithFlag : Obligations.AddAndSubtractWithFlag := by
  refine fun x y s => ⟨⟨_, rfl, ?_, fun hx => ?_, rfl, onlyReg_setRegFlag s x _ _⟩,
    ⟨_, rfl, ?_, fun hx => ?_, rfl, onlyReg_setRegFlag s x _ _⟩, _, rfl, ?_, fun hx => ?_, rfl,
    onlyReg_setRegFlag s x _ _⟩
  · rw [(reg_flag_and_result s x _ _).1, carryFlag_eq]
  · rw [(reg_flag_and_result s x _ _).2 hx, BitVec.toNat_add]
  · rw [(reg_flag_and_result s x _ _).1, greaterFlag_eq]
  · rw [(reg_flag_and_result s x _ _).2 hx, toNat_sub_eq_emod]
  · rw [(reg_flag_and_result s x _ _).1, greaterFlag_eq]
  · rw [(reg_flag_and_result s x _ _).2 hx, toNat_sub_eq_emod]

theorem flag_toNat (b : Bool) : (flag b).toNat = b.toNat := by
  cases b <;> rfl

theorem lowBitFlag_toNat (a : Byte) : (lowBitFlag a).toNat = a.toNat % 2 := by
  rw [lowBitFlag, flag_toNat, BitVec.getLsbD, Nat.toNat_testBit, pow_zero, Nat.div_one]

theorem highBitFlag_toNat (a : Byte) : (highBitFlag a).toNat = a.toNat / 128 := by
  have := a.isLt
  rw [highBitFlag, flag_toNat, BitVec.getLsbD, Nat.toNat_testBit]
  omega

/-- Settles O39: the flags are the lowest and the highest bit of the operand. -/
theorem shiftsWithFlag : Obligations.ShiftsWithFlag := by
  refine fun x y s => ⟨⟨_, rfl, ?_, fun hx => ?_, rfl, onlyReg_setRegFlag s x _ _⟩, _, rfl, ?_, fun hx => ?_, rfl,
    onlyReg_setRegFlag s x _ _⟩
  · rw [(reg_flag_and_result s x _ _).1, lowBitFlag_toNat]
  · rw [(reg_flag_and_result s x _ _).2 hx, BitVec.toNat_ushiftRight, Nat.shiftRight_eq_div_pow]
  · rw [(reg_flag_and_result s x _ _).1, highBitFlag_toNat]
  · rw [(reg_flag_and_result s x _ _).2 hx, BitVec.toNat_shiftLeft, Nat.shiftLeft_eq]

/-! ### The index register -/

theorem glyphAddr_toNat (b : Byte) : (glyphAddr b).toNat = Config.fontBase.val + 5 * (b.toNat % 16) := by
  have := Config.fontBase.isLt
  rw [glyphAddr, BitVec.toNat_ofNat, lowNibble, Config.fontStride]
  omega

/-- An instruction that writes `I` and goes on changes nothing else. -/
theorem setI_advance_frame (s : State) (a : Word) :
    (s.setI a).advance.pc = s.pc + 2 ∧ RegsKept noReg s (s.setI a).advance ∧ TimersKept s (s.setI a).advance ∧
      StackKept s (s.setI a).advance ∧ MemoryKept s (s.setI a).advance ∧ DisplayKept s (s.setI a).advance ∧
      ControlKept s (s.setI a).advance :=
  ⟨rfl, regsKept_of_eq rfl, ⟨rfl, rfl⟩, stackKept_of_eq rfl rfl, memoryKept_of_eq rfl, displayKept_of_eq rfl, rfl,
    rfl, rfl⟩

/-- Settles O40: each is one assignment of `I`. -/
theorem indexLoads : Obligations.IndexLoads := by
  refine fun nnn x s => ⟨⟨_, rfl, addrOf_toNat nnn, setI_advance_frame s _⟩,
    ⟨_, rfl, ?_, setI_advance_frame s _⟩, _, rfl, glyphAddr_toNat _, setI_advance_frame s _⟩
  rw [State.advance_i, State.setI_i, BitVec.toNat_add, widen_toNat]

/-! ### Memory transfer -/

/-- An instruction that stores bytes and goes on changes nothing but memory and `PC`. -/
theorem setMem_advance_frame (s : State) (m : Memory) :
    (s.setMem m).advance.pc = s.pc + 2 ∧ RegsKept noReg s (s.setMem m).advance ∧ (s.setMem m).advance.i = s.i ∧
      TimersKept s (s.setMem m).advance ∧ StackKept s (s.setMem m).advance ∧ DisplayKept s (s.setMem m).advance ∧
      ControlKept s (s.setMem m).advance :=
  ⟨rfl, regsKept_of_eq rfl, rfl, ⟨rfl, rfl⟩, stackKept_of_eq rfl rfl, displayKept_of_eq rfl, rfl, rfl, rfl⟩

/-- A store leaves memory outside its bytes alone. -/
theorem memoryKeptOutside_writeList (s : State) {a n : Nat} {bs : List Byte} (h : bs.length = n) :
    MemoryKeptOutside a n s (s.setMem (s.mem.writeList a bs)).advance :=
  fun _ hb => Memory.read_writeList_outside s.mem bs (h ▸ hb)

/-- A stored byte reads back at its effective address. -/
theorem read_stored (s : State) {bs : List Byte} {k : Nat} (hk : k < bs.length) (hm : s.mem.wf = true)
    (h : s.i.toNat + bs.length ≤ 4096) :
    (s.setMem (s.mem.writeList s.i.toNat bs)).advance.mem.read (s.ea k) = bs[k] :=
  Memory.read_writeList_inside bs hk hm h

/-- A decimal digit fits in a byte. -/
theorem digit_toNat {d : Nat} (h : d < 10) : (BitVec.ofNat 8 d).toNat = d := by
  rw [BitVec.toNat_ofNat]
  omega

/-- Settles O41: the digits read back from their three addresses. -/
theorem bcdStoresThreeDigits : Obligations.BcdStoresThreeDigits := by
  intro x s hm
  have hx := (s.reg x).isLt
  refine ⟨fun h => ?_, fun h => execLdB_fault x s (by omega)⟩
  have stored {k : Nat} (hk : k < 3) := read_stored s (bs := bcdDigits (s.reg x)) hk hm (by simp; omega)
  refine ⟨_, execLdB_ok x s (by omega), ?_, ?_, ?_, memoryKeptOutside_writeList s rfl, setMem_advance_frame s _⟩
  all_goals rw [stored (by decide)]
  · exact digit_toNat (by omega)
  · exact digit_toNat (by omega)
  · exact digit_toNat (by omega)

/-- The registers of a store read back (R174). -/
theorem read_storedRegs (s : State) {x k : RegIx} (hk : k.val ≤ x.val) (hm : s.mem.wf = true)
    (h : s.i.toNat + x.val ≤ 0xFFF) :
    (s.setMem (s.mem.writeList s.i.toNat (s.regsTo x))).advance.mem.read (s.ea k.val) = s.reg k := by
  have hlt : k.val < (s.regsTo x).length := by
    rw [State.length_regsTo]
    omega
  rw [read_stored s hlt hm (by rw [State.length_regsTo]; omega), State.getElem_regsTo]

/-- Settles O42: the registers read back from their addresses. -/
theorem storeRegisters : Obligations.StoreRegisters := fun x s hm =>
  ⟨fun h => ⟨_, execStoreRegs_ok x s h, fun _ hk => read_storedRegs s hk hm h,
    memoryKeptOutside_writeList s (s.length_regsTo x), setMem_advance_frame s _⟩, execStoreRegs_fault x s⟩

/-- A load of `V[0]` to `V[x]` changes these registers and nothing else. -/
theorem onlyRegs_setRegs_readList (s : State) (a : Nat) (x : RegIx) :
    OnlyRegsAndPc (fun j => decide (j.val ≤ x.val)) s (s.setRegs (s.mem.readList a (x.val + 1))).advance := by
  refine ⟨fun j hj => ?_, by simp, ⟨by simp, by simp⟩, stackKept_of_eq (by simp) (by simp),
    memoryKept_of_eq (by simp), displayKept_of_eq (by simp), by simp, by simp, by simp⟩
  have hj' : ¬ j.val ≤ x.val := of_decide_eq_false hj
  rw [State.advance_reg, State.reg_setRegs_readList, if_neg (by omega)]

/-- Settles O43: a register up to `x` is the byte read for it. -/
theorem loadRegisters : Obligations.LoadRegisters := by
  intro x s
  refine ⟨fun h => ⟨_, execLoadRegs_ok x s h, fun k hk => ?_, ?_, onlyRegs_setRegs_readList s _ x⟩,
    execLoadRegs_fault x s⟩
  · rw [State.advance_reg, State.reg_setRegs_readList, if_pos (by omega), State.ea_eq]
  · rw [State.advance_pc, State.nextPc, State.setRegs_pc]

/-- Settles O44: the bytes loaded are those the store left. -/
theorem storeThenLoadRestoresRegisters : Obligations.StoreThenLoadRestoresRegisters := by
  refine fun x s v pc hm h => ⟨_, _, execStoreRegs_ok x s h, execLoadRegs_ok x _ h, fun k hk => ?_, ?_⟩
  · rw [State.advance_reg, State.reg_setRegs_readList, if_pos (by omega)]
    exact read_storedRegs s hk hm h
  · rw [State.advance_i, State.setRegs_i, State.advance_i, State.setMem_i]

/-- R62: the fetch reads memory as the store left it. -/
theorem fetch_after_store (s : State) {bs : List Byte} {a : Word} (hm : s.mem.wf = true) (ha : fetchable a = true)
    (h : s.i.toNat + bs.length ≤ 4096) :
    ((s.setMem (s.mem.writeList s.i.toNat bs)).advance.setPc a).fetch =
      .ok (opcodeAfterStore s s.i.toNat bs a.toNat) := by
  have hread := Memory.read_writeList (a := s.i.toNat) bs hm h
  rw [State.fetch_ok ha]
  simp only [State.setPc_mem, State.setPc_pc, State.advance_mem, State.setMem_mem, hread, opcodeAfterStore,
    byteAfterStore]

/-- Settles O45: a fetch reads the memory the store left, byte by byte. -/
theorem storedWordIsFetchedAtOnce : Obligations.StoredWordIsFetchedAtOnce := by
  refine fun x s a hm ha => ⟨fun h => ⟨_, execStoreRegs_ok x s h, fetch_after_store s hm ha ?_⟩,
    fun h => ⟨_, execLdB_ok x s h, fetch_after_store s hm ha ?_⟩⟩
  · rw [State.length_regsTo]
    omega
  · rw [length_bcdDigits]
    omega

/-! ### Timers, keys, random -/

/-- Settles O46: each is one assignment. -/
theorem timerLoads : Obligations.TimerLoads := fun x s =>
  ⟨⟨_, rfl, State.reg_setReg_same s x s.dt, rfl, onlyReg_setReg s x s.dt⟩,
    ⟨_, rfl, rfl, rfl, rfl, regsKept_of_eq rfl, rfl, stackKept_of_eq rfl rfl, memoryKept_of_eq rfl,
      displayKept_of_eq rfl, rfl, rfl, rfl⟩,
    ⟨_, rfl, rfl, rfl, rfl, regsKept_of_eq rfl, rfl, stackKept_of_eq rfl rfl, memoryKept_of_eq rfl,
      displayKept_of_eq rfl, rfl, rfl, rfl⟩⟩

theorem exec_ldVxK_waits (x : RegIx) {s : State} (h : s.input.keyEvent = none) : exec (.ldVxK x) s = .next s := by
  rw [exec, execLdVxK_eq, h]
  rfl

theorem exec_ldVxK_event (x : RegIx) {s : State} {k : BitVec 4} (h : s.input.keyEvent = some k) :
    exec (.ldVxK x) s = .next (s.setReg x (keyValue k)).advance := by
  rw [exec, execLdVxK_eq, h]
  rfl

theorem keyValue_toNat (k : BitVec 4) : (keyValue k).toNat = k.toNat := by
  have := k.isLt
  rw [keyValue, BitVec.toNat_setWidth]
  omega

/-- Settles O47: without an event the state is left as a whole, with one a register is written. -/
theorem keyWaitReissues : Obligations.KeyWaitReissues := by
  refine fun x s => ⟨exec_ldVxK_waits x, fun k hk => ⟨_, exec_ldVxK_event x hk, ?_, rfl, onlyReg_setReg s x _⟩⟩
  rw [State.advance_reg, State.reg_setReg_same, keyValue_toNat]

/-- Settles O49: one register write of the masked draw. -/
theorem randomIsMaskedDraw : Obligations.RandomIsMaskedDraw := by
  refine fun x kk s => ⟨_, rfl, fun b => ?_, rfl, onlyReg_setReg s x _⟩
  rw [State.advance_reg, State.reg_setReg_same, BitVec.getLsbD_and]
  cases kk.getLsbD b <;> simp

end Sys2Proof.Machine
end

section
/-! SUPPORT. The display (spec/45_draw.md): `CLS`, what `DRW` does to the pixels under its sprite, and drawing twice. -/

namespace Sys2Proof.Machine

/-- Settles O50: every row of the new buffer is zero. -/
theorem clearTurnsEveryPixelOff : Obligations.ClearTurnsEveryPixelOff := by
  refine fun s => ⟨_, rfl, fun y x => ?_, rfl, regsKept_of_eq rfl, rfl, ⟨rfl, rfl⟩, stackKept_of_eq rfl rfl,
    memoryKept_of_eq rfl, rfl, rfl, rfl⟩
  simp [FrameBuffer.pixel, FrameBuffer.clear]

/-- The rows read from memory cover the pixels of `SpriteCovers`. -/
theorem covers_readList_iff (s : State) (x y n : RegIx) (py : Row) (px : Column) :
    Covers (s.reg x) (s.reg y) 0 (s.mem.readList s.i.toNat n.val) py px ↔ SpriteCovers s x y n py px := by
  constructor
  · rintro ⟨r, c, hr, hc, hy, hx, hb⟩
    rw [Memory.getElem_readList] at hb
    exact ⟨r, c, by simpa using hr, hc, by simpa using hy, hx, hb⟩
  · rintro ⟨r, c, hr, hc, hy, hx, hb⟩
    refine ⟨r, c, by simpa using hr, hc, by simpa using hy, hx, ?_⟩
    rw [Memory.getElem_readList]
    exact hb

/-- A drawn sprite toggles the pixels it covers, and raises the flag when one of them was on. -/
theorem draw_spec (s : State) (x y n : RegIx) :
    (∀ py px,
      (SpriteCovers s x y n py px →
        (s.fb.draw (s.reg x) (s.reg y) (s.mem.readList s.i.toNat n.val)).1.pixel py px = !s.fb.pixel py px) ∧
      (¬ SpriteCovers s x y n py px →
        (s.fb.draw (s.reg x) (s.reg y) (s.mem.readList s.i.toNat n.val)).1.pixel py px = s.fb.pixel py px)) ∧
    ((s.fb.draw (s.reg x) (s.reg y) (s.mem.readList s.i.toNat n.val)).2 = true ↔
      ∃ py px, SpriteCovers s x y n py px ∧ s.fb.pixel py px = true) := by
  have h := drawFrom_spec (s.reg x) (s.reg y) (s.mem.readList s.i.toNat n.val) 0 s.fb false
    (by rw [Memory.length_readList]; omega)
  simpa only [FrameBuffer.draw, covers_readList_iff, Bool.false_eq_true, false_or] using h

/-- Settles O51: the pixels and the collision of `draw_spec`. -/
theorem drawTogglesExactlyTheSpritePixels : Obligations.DrawTogglesExactlyTheSpritePixels := by
  intro x y n s h
  obtain ⟨pixels, collision⟩ := draw_spec s x y n
  refine ⟨_, execDrw_ok x y n s h, fun py px => (pixels py px).1, fun py px => (pixels py px).2, fun hon => ?_,
    fun hoff => ?_, rfl, (onlyReg_setReg (s.setFb _) regF _).1, rfl, ⟨rfl, rfl⟩, stackKept_of_eq rfl rfl,
    memoryKept_of_eq rfl, rfl, rfl, rfl⟩
  · rw [State.advance_reg, collision.2 hon]
    exact State.reg_setReg_same _ regF _
  · have hflag : ¬ ∃ py px, SpriteCovers s x y n py px ∧ s.fb.pixel py px = true := by
      rintro ⟨py, px, hc, hon⟩
      simp [hoff py px hc] at hon
    rw [State.advance_reg, Bool.eq_false_iff.2 (mt collision.1 hflag)]
    exact State.reg_setReg_same _ regF _

/-- The pixels under a sprite depend on its two coordinates, `I` and memory. -/
theorem spriteCovers_congr {s t : State} {x y : RegIx} (n : RegIx) (hx : t.reg x = s.reg x) (hy : t.reg y = s.reg y)
    (hi : t.i = s.i) (hm : MemoryKept s t) (py : Row) (px : Column) :
    SpriteCovers t x y n py px ↔ SpriteCovers s x y n py px := by
  simp only [SpriteCovers, hx, hy, hi, hm _]

/-- Settles O52: both draws toggle the same pixels, and a pixel that the first turns on is on before the second. -/
theorem drawTwiceRestoresTheDisplay : Obligations.DrawTwiceRestoresTheDisplay := by
  intro x y n s hx hy h
  obtain ⟨t, ht, toggled, kept, flagOn, flagOff, -, hregs, hi, -, -, hmem, -⟩ :=
    drawTogglesExactlyTheSpritePixels x y n s h
  obtain ⟨u, hu, toggled', kept', flagOn', flagOff', -⟩ :=
    drawTogglesExactlyTheSpritePixels x y n t (by rwa [hi])
  have same := spriteCovers_congr n (hregs x (by simpa [oneReg, regF] using hx))
    (hregs y (by simpa [oneReg, regF] using hy)) hi hmem
  refine ⟨t, u, ht, hu, fun py px => ?_, ?_, fun hnone => ?_⟩
  · by_cases hc : SpriteCovers s x y n py px
    · rw [toggled' py px ((same py px).2 hc), toggled py px hc, Bool.not_not]
    · rw [kept' py px (mt (same py px).1 hc), kept py px hc]
  · rintro ⟨py, px, hc⟩
    cases hon : s.fb.pixel py px with
    | true => exact .inl (flagOn ⟨py, px, hc, hon⟩)
    | false => exact .inr (flagOn' ⟨py, px, (same py px).2 hc, by rw [toggled py px hc, hon]; rfl⟩)
  · exact ⟨flagOff fun py px hc => absurd hc (hnone py px),
      flagOff' fun py px hc => absurd ((same py px).1 hc) (hnone py px)⟩

end Sys2Proof.Machine
end

section
/-! SUPPORT. The host's operations (spec/10_state.md R37): reset, load, ticks, and the cycles it requests. -/

namespace Sys2Proof.Machine

/-! ### Reset -/

/-- The font lies where its base says, whatever base and font are (R5, R38). -/
theorem unlisted_font (k : Fin 80) : Memory.unlisted (Config.fontBase.val + k.val) = Config.fontData[k.val] := by
  have := Config.fontBase.isLt
  have hk : Config.fontBase.val ≤ Config.fontBase.val + k.val ∧
      Config.fontBase.val + k.val < Config.fontBase.val + 80 := by omega
  rw [Memory.unlisted, if_pos (by omega), resetByte, dif_pos hk]
  simp only [Nat.add_sub_cancel_left]

theorem unlisted_outside_font {a : Nat} (h : a < Config.fontBase.val ∨ Config.fontBase.val + 80 ≤ a) :
    Memory.unlisted a = 0 := by
  rw [Memory.unlisted, resetByte, dif_neg (by omega), ite_self]

/-- Settles O53: memory lists nothing, so it reads as the font and zero. -/
theorem resetGivesEveryPartItsValue : Obligations.ResetGivesEveryPartItsValue := by
  intro s t r h
  cases h
  refine ⟨rfl, rfl, rfl, fun j => ?_, rfl, rfl, rfl, fun k => ?_, fun y x => ?_, unlisted_font,
    fun _ => unlisted_outside_font⟩
  · exact Vector.getElem_replicate j.isLt
  · exact Vector.getElem_replicate k.isLt
  · simp [FrameBuffer.pixel, State.hostReset, State.reset]

/-! ### Load -/

/-- Settles O54: an image that fits is one store, another one leaves the state as a whole. -/
theorem loadProgramCopiesOrRefuses : Obligations.LoadProgramCopiesOrRefuses := by
  refine fun b s hm => ⟨fun h => ⟨s.setMem (s.mem.writeList Config.progBase b), ?_, fun k hk => ?_,
    fun _ ha => Memory.read_writeList_outside _ b ha, rfl, regsKept_of_eq rfl, rfl, ⟨rfl, rfl⟩,
    stackKept_of_eq rfl rfl, displayKept_of_eq rfl, rfl, rfl, rfl⟩, fun h => ?_⟩
  · rw [hostOp_loadProgram, s.loadProgram_fits h]
  · exact Memory.read_writeList_inside b hk hm (by rw [Config.progBase, Config.memSize]; omega)
  · rw [hostOp_loadProgram, s.loadProgram_tooLarge h]

/-! ### Ticks -/

/-- A timer one tick later (decision D23). -/
def countDown (b : Byte) : Byte := if b = 0 then b else b - 1

theorem countDown_toNat (b : Byte) : (countDown b).toNat = b.toNat - 1 := by
  rw [countDown]
  split
  case isTrue h =>
    rw [h]
    rfl
  case isFalse h =>
    have hpos : b.toNat ≠ 0 := fun h0 => h (BitVec.eq_of_toNat_eq h0)
    have := b.isLt
    rw [BitVec.toNat_sub, show (1 : Byte).toNat = 1 from rfl]
    omega

theorem State.tickDelay_eq (s : State) : s.tickDelay = s.setDt (countDown s.dt) := by
  rw [State.tickDelay, countDown]
  split <;> rfl

theorem State.tickSound_eq (s : State) : s.tickSound = s.setSt (countDown s.st) := by
  rw [State.tickSound, countDown]
  split <;> rfl

/-- Settles O56: each tick assigns its timer the value one tick later. -/
theorem ticksCountDownToZero : Obligations.TicksCountDownToZero := by
  intro s
  simp only [hostOp, s.tickDelay_eq, s.tickSound_eq]
  exact ⟨⟨_, rfl, countDown_toNat s.dt, rfl, rfl, regsKept_of_eq rfl, rfl, stackKept_of_eq rfl rfl,
      memoryKept_of_eq rfl, displayKept_of_eq rfl, rfl, rfl, rfl⟩,
    ⟨_, rfl, countDown_toNat s.st, rfl, rfl, regsKept_of_eq rfl, rfl, stackKept_of_eq rfl rfl,
      memoryKept_of_eq rfl, displayKept_of_eq rfl, rfl, rfl, rfl⟩⟩

/-! ### Cycles the host requests -/

/-- A cycle the host requests of a running machine runs the fetched instruction under the host's inputs. -/
theorem State.hostStep_runs {s u : State} {e : EnvInput} {w : Word} (hs : s.status = .running) (hf : s.fetch = .ok w)
    (hu : exec (decode w) { s with inputs := e :: s.inputs } = .next u) :
    s.hostStep e = .next { u with inputs := s.inputs, cycle := s.cycle + 1 } := by
  obtain ⟨-, hcycle⟩ := exec_keeps_inputs hu
  rw [State.hostStep, step_runs (s := { s with inputs := e :: s.inputs }) hs hf hu, State.endCycle, hcycle]

/-- Settles O60: the cycle of `hostStep_runs`, reported. -/
theorem hostStepUsesItsInputs : Obligations.HostStepUsesItsInputs :=
  fun _ _ _ _ hs hf hu => ⟨_, hostOp_step (State.hostStep_runs hs hf hu)⟩

theorem State.fetch_of_pending {s : State} {i : Instr} (h : s.pending = some i) :
    ∃ w, s.fetch = .ok w ∧ decode w = i := by
  rw [State.pending] at h
  split at h
  · next w hw => exact ⟨w, hw, Option.some.inj h⟩
  · cases h

/-- A requested cycle at `LD Vx,K` with no key event counts and does nothing else (decision D17). -/
theorem State.hostStep_waits {s : State} {x : RegIx} {e : EnvInput} (hs : s.status = .running)
    (hp : s.pending = some (.ldVxK x)) (he : e.keyEvent = none) :
    s.hostStep e = .next { s with cycle := s.cycle + 1 } := by
  obtain ⟨w, hf, hw⟩ := State.fetch_of_pending hp
  have hu := exec_ldVxK_waits (s := { s with inputs := e :: s.inputs }) x he
  rw [← hw] at hu
  exact (State.hostStep_runs hs hf hu :)

theorem State.hostStep_event {s : State} {x : RegIx} {e : EnvInput} {k : BitVec 4} (hs : s.status = .running)
    (hp : s.pending = some (.ldVxK x)) (he : e.keyEvent = some k) :
    s.hostStep e = .next { (s.setReg x (keyValue k)).advance with cycle := s.cycle + 1 } := by
  obtain ⟨w, hf, hw⟩ := State.fetch_of_pending hp
  have hu := exec_ldVxK_event (s := { s with inputs := e :: s.inputs }) x he
  rw [← hw] at hu
  exact (State.hostStep_runs hs hf hu :)

theorem hostRun_step {s t : State} {e : EnvInput} (os : List HostOp) (h : s.hostStep e = .next t) :
    hostRun (.step e :: os) s = hostRun os t := by
  rw [hostRun, hostOp_step h]

/-- Settles O48, by induction on the waits: each leaves the machine where it was. -/
theorem keyWaitEndsAtTheFirstKeyEvent : Obligations.KeyWaitEndsAtTheFirstKeyEvent := by
  intro x s waits e k hs hp hwaits he
  induction waits generalizing s with
  | nil =>
    obtain ⟨hregs, -⟩ := onlyReg_setReg s x (keyValue k)
    refine ⟨_, hostRun_step [] (State.hostStep_event hs hp he), ?_, rfl, hs, hregs⟩
    exact (congrArg BitVec.toNat (State.reg_setReg_same s x _)).trans (keyValue_toNat k)
  | cons w waits ih =>
    obtain ⟨hw, hwaits⟩ := List.forall_mem_cons.1 hwaits
    obtain ⟨t, ht, hkey, hpc, hstatus, hregs⟩ := ih { s with cycle := s.cycle + 1 } hs hp hwaits
    exact ⟨t, (hostRun_step _ (State.hostStep_waits hs hp hw)).trans ht, hkey, hpc, hstatus, hregs⟩

/-! ### Leaving a halt -/

theorem State.hostStep_halted {s : State} {r : HaltReason} (e : EnvInput) (h : s.status = .halted r) :
    s.hostStep e = .next s := by
  rw [State.hostStep, step_halted (s := { s with inputs := e :: s.inputs }) h]

theorem State.loadProgram_status (s : State) (b : List Byte) : (s.loadProgram b).1.status = s.status := by
  rw [State.loadProgram]
  split <;> rfl

theorem State.tickDelay_status (s : State) : s.tickDelay.status = s.status := by
  rw [s.tickDelay_eq, State.setDt_status]

theorem State.tickSound_status (s : State) : s.tickSound.status = s.status := by
  rw [s.tickSound_eq, State.setSt_status]

theorem hostOp_keeps_halt {o : HostOp} {s t : State} {r : HaltReason} {reply : HostReply} (hs : s.status = .halted r)
    (ho : o ≠ .reset) (h : hostOp o s = .next (t, reply)) : t.status = .halted r := by
  cases o
  case reset => exact absurd rfl ho
  case step e =>
    rw [hostOp_step (State.hostStep_halted e hs)] at h
    cases h
    exact hs
  case loadProgram b =>
    cases h
    exact (s.loadProgram_status b).trans hs
  case tickDelay =>
    cases h
    exact s.tickDelay_status.trans hs
  case tickSound =>
    cases h
    exact s.tickSound_status.trans hs
  all_goals
    cases h
    exact hs

/-- Settles O58: the host's cycle is absorbed, and no operation but `Reset` writes `STATUS`. -/
theorem onlyResetLeavesHalted : Obligations.OnlyResetLeavesHalted := by
  refine fun o s t r reply hs h => ⟨?_, fun ho => hostOp_keeps_halt hs ho h, ?_⟩
  · rintro rfl
    cases h
    rfl
  · rintro e rfl
    rw [hostOp_step (State.hostStep_halted e hs), hs] at h
    cases h
    exact ⟨rfl, rfl⟩

end Sys2Proof.Machine
end
